-- ==== Sys2Proof/Word.lean ====
section
/-! DEFINITION. The words, addresses and bit strings of the host port (00_scope.md R7, R10, R11). -/

namespace Sys2Proof

/-- A host-port data word and every register: WORD = 32 bits (R7, R11). -/
abbrev Word := BitVec 32

/-- A host-port byte address: ADDR_BITS = 16 bits (R7, R50). -/
abbrev Addr := BitVec 16

/-- A bit string (R10): position 0 is the first (leftmost) bit; a bit is a binary value. -/
abbrev Bits := List Bool

end Sys2Proof
end

