-- ==== Sys2Proof/Config.lean ====
section
/-! DEFINITION. What a machine of this kind fixes (MAXBITS, the ID word), and the free values: what the spec
leaves UNSPECIFIED. A free value is an opaque constant, so nothing can be proved of what it is. -/

namespace Sys2Proof.Config

/-- The legal values of the parameter MAXBITS: the multiples of 32 from 32 to 8192 (R6). -/
abbrev LegalMaxBits (n : Nat) : Prop := 32 ≤ n ∧ n ≤ 8192 ∧ n % 32 = 0

/-- The reference instance MAXBITS = 128 (R6), which `State.reset` takes. DESIGN CHOICE, log 1: MAXBITS is open,
so a claim about `State.reset` alone speaks of this instance; a claim over all states speaks of every one. -/
def referenceMaxBits : Nat := 128

/-- The constant of the ID register: tag 0x4243, version 1 (R27, R3). -/
def idWord : Word := 0x42430001#32

/-- The word a host read returns, while BUSY = 1, at an address R57 makes UNSPECIFIED: a fresh one for each draw
(93 U3). Free value, log 5. -/
opaque busyRead : Nat → Word

/-- What a bit buffer holds after a reset event, by draw, number of the buffer and position (R37, 93 U1).
Free value, log 4. -/
opaque resetBit : Nat → Nat → Nat → Bool

/-- What a TEXT entry holds after a reset event, by draw and entry (R37, 93 U1). Free value, log 4. -/
opaque resetText : Nat → Nat → Word

/-- What PCMD holds after a reset event, by draw (R37, 93 U2). Free value, log 4. -/
opaque resetPcmd : Nat → Word

end Sys2Proof.Config
end

