-- ==== Sys2Proof/Syntax.lean ====
section
/-! DEFINITION. The syntax: the ten commands of the opcode table, the bit buffers they name, and the statements
of a host (30_encoding.md R86, R91, R92). -/

namespace Sys2Proof

/-- The three bit buffers a command's field A selects (R21, R83). -/
inductive Buf where
  /-- BUF[0] -/
  | key
  /-- BUF[1] -/
  | data
  /-- BUF[2] -/
  | res
  deriving DecidableEq, Repr

/-- The commands: one constructor per row of the opcode table, the ten legal words of R86. -/
inductive Instr where
  | nop
  | encodeKey
  | encodeData
  | encodeRes
  | decodeKey
  | decodeData
  | decodeRes
  | xorKey
  | xorData
  | xorRes
  deriving DecidableEq, Repr

/-- The registers of the address map, below 0x0030 (R52). -/
inductive Reg where
  | id
  | cap
  | cmd
  | status
  | einfo
  | klen
  | dlen
  | rlen
  | tlen
  deriving DecidableEq, Repr

/-- What a host statement names (R91): a register, a window word of a bit buffer, a window word of TEXT, or an
offset written out. -/
inductive Target where
  | reg (r : Reg)
  | window (b : Buf) (w : Nat)
  | text (j : Nat)
  | offset (a : Addr)
  deriving DecidableEq, Repr

/-- One statement of a host: a write or a read of one word (R91), or the wait for completion (R92). -/
inductive HostStmt where
  /-- `WR <target>, <value>` -/
  | wr (t : Target) (v : Word)
  /-- `RD <target>` -/
  | rd (t : Target)
  /-- `POLL`: read STATUS again and again until its bit 0 reads 0 -/
  | poll
  deriving DecidableEq, Repr

/-- Who takes a step (R8, R180): the host, the engine, or the platform asserting reset. -/
inductive Turn where
  | host
  | engine
  | reset
  deriving DecidableEq, Repr

end Sys2Proof
end

