-- ==== Sys2Proof/WellFormed.lean ====
section
/-! DEFINITION. The checks on syntax. A command term is always well formed: its ten constructors are the ten
legal words and carry no operand. What can be ill formed is a command word's FIELDS (R85) and a host statement's
target (R53). -/

namespace Sys2Proof

/-- The fields of a command word (R81). -/
structure Fields where
  /-- OP, bits 3:0 -/
  op : BitVec 4
  /-- A, bits 5:4 -/
  a : BitVec 2
  /-- RSV, bits 31:6 -/
  rsv : BitVec 26
  deriving DecidableEq, Repr

/-- Legality of a command word's fields (R85). -/
abbrev Fields.WellFormed (f : Fields) : Prop :=
  f.rsv = 0#26 ∧ ((f.op = 0#4 ∧ f.a = 0#2) ∨ ((f.op = 1#4 ∨ f.op = 2#4 ∨ f.op = 3#4) ∧ f.a ≠ 3#2))

/-- Every command term is well formed: R86 lists the ten legal words, and each is one constructor. -/
abbrev Instr.WellFormed (_ : Instr) : Prop := True

/-- A window word's number lies in its 4 KiB window (R52, R53); a register or a written offset always stands. -/
abbrev Target.WellFormed : Target → Prop
  | .reg _ => True
  | .window _ w => w < 1024
  | .text j => j < 1024
  | .offset _ => True

/-- A host statement is well formed when its target is. -/
abbrev HostStmt.WellFormed : HostStmt → Prop
  | .wr t _ => t.WellFormed
  | .rd t => t.WellFormed
  | .poll => True

end Sys2Proof
end

