-- ==== Sys2Proof/Decode.lean ====
section
/-! DEFINITION. Decoding of command words, total on every word and rejecting by name (30_encoding.md R81 to R88),
and the encoder written from the same table. -/

namespace Sys2Proof

/-- The fields of a command word (R81). -/
def fieldsOf (w : Word) : Fields where
  op := w.extractLsb' 0 4
  a := w.extractLsb' 4 2
  rsv := w.extractLsb' 6 26

/-- Why a word is illegal (R85). There is one verdict for all of them (R87); the name only says which check
refused it. -/
inductive IllegalReason where
  /-- RSV is not 0 -/
  | reservedBits
  /-- OP = 0 and A is not 0 -/
  | nopOperand
  /-- A = 3 -/
  | reservedBuffer
  /-- OP = 4 to 15 -/
  | reservedOp
  deriving DecidableEq, Repr

/-- What a command word decodes to (R88): a command, or the illegal word itself. -/
inductive Decoded where
  | cmd (i : Instr)
  | illegal (why : IllegalReason) (w : Word)
  deriving DecidableEq, Repr

/-- The bit buffer a value of field A selects; A = 3 selects nothing (R83). -/
def bufOfField (a : BitVec 2) : Option Buf :=
  if a = 0#2 then some .key
  else if a = 1#2 then some .data
  else if a = 2#2 then some .res
  else none

/-- ENCODE with operand `b` (R83). -/
def Instr.encodeInto : Buf → Instr
  | .key => .encodeKey
  | .data => .encodeData
  | .res => .encodeRes

/-- DECODE with operand `b` (R83). -/
def Instr.decodeFrom : Buf → Instr
  | .key => .decodeKey
  | .data => .decodeData
  | .res => .decodeRes

/-- XOR with destination `b` (R83). -/
def Instr.xorInto : Buf → Instr
  | .key => .xorKey
  | .data => .xorData
  | .res => .xorRes

/-- Decode a command whose OP takes a buffer operand (R88). -/
def decodeOperand (w : Word) (make : Buf → Instr) : Decoded :=
  match bufOfField (fieldsOf w).a with
  | some b => .cmd (make b)
  | none => .illegal .reservedBuffer w

/-- The decoder of R88. -/
def decode (w : Word) : Decoded :=
  if (fieldsOf w).rsv ≠ 0#26 then .illegal .reservedBits w
  else if (fieldsOf w).op = 0#4 then
    if (fieldsOf w).a = 0#2 then .cmd .nop else .illegal .nopOperand w
  else if (fieldsOf w).op = 1#4 then decodeOperand w Instr.encodeInto
  else if (fieldsOf w).op = 2#4 then decodeOperand w Instr.decodeFrom
  else if (fieldsOf w).op = 3#4 then decodeOperand w Instr.xorInto
  else .illegal .reservedOp w

/-- The OP value of a command (R82). -/
def Instr.opField : Instr → BitVec 4
  | .nop => 0x0#4
  | .encodeKey | .encodeData | .encodeRes => 0x1#4
  | .decodeKey | .decodeData | .decodeRes => 0x2#4
  | .xorKey | .xorData | .xorRes => 0x3#4

/-- The A value of a command (R83, R86). -/
def Instr.aField : Instr → BitVec 2
  | .nop | .encodeKey | .decodeKey | .xorKey => 0#2
  | .encodeData | .decodeData | .xorData => 1#2
  | .encodeRes | .decodeRes | .xorRes => 2#2

/-- The word of a command: RSV = 0, then A, then OP (R81). -/
def encode (i : Instr) : Word := 0#26 ++ i.aField ++ i.opField

/-- The command word that a table row's bits stand for: the low `nbits` of `w`, all higher bits 0. A command is
one 32-bit word written whole (R80, R89), so its bits are numbered as the table numbers them. -/
def tableWord (nbits w : Nat) : Word := BitVec.ofNat 32 (w % 2 ^ nbits)

/-- The command the decoder reads from a table row's bits, none where it refuses. -/
def decodeTableWord (nbits w : Nat) : Option Instr :=
  match decode (tableWord nbits w) with
  | .cmd i => some i
  | .illegal _ _ => none

end Sys2Proof
end

