-- ==== Sys2Proof/Machine/State.lean ====
section
/-! DEFINITION. The state of the block and of the agents around it (10_state.md R20), its value right after reset
(R37), and the reasons a step could stop. -/

namespace Sys2Proof.Machine

/-- The error codes a command records in STATUS.ERR (60_exceptions.md R160). Codes 5 to 15 are never recorded. -/
inductive ErrCode where
  /-- 0: no error -/
  | none
  /-- 1: PCMD is not one of the ten legal words -/
  | illegalCmd
  /-- 2: an operand length register above its capacity -/
  | lenRange
  /-- 3: KLEN and DLEN differ -/
  | lengthMismatch
  /-- 4: a code point above 255 -/
  | codeRange
  deriving DecidableEq, Repr

/-- Why a step could fault. Nothing raises a fault: no host access faults (R56, R59), no trap is taken (R166),
and every command completes (R108), so the type has no constructor. That is safe and unsafe alike for no claim. -/
inductive Fault where
  deriving DecidableEq, Repr

/-- Why a step could be refused. -/
inductive Refusal where
  /-- Raised by an arm of `exec` whose command has no meaning yet (no arm does): safe, the run stops there. -/
  | notModelled (mnemonic : String)
  deriving DecidableEq, Repr

/-- Everything the spec gives the block (R20), and the model's own fields for the agents around it.
ID and CAP are hard-wired (R27, R28), CMD has no storage of its own (R33), and STATUS is a view of the fields
`pend`, `done`, `trail`, `hzd` and `err` (R29, R34; log 11). -/
structure State where
  /-- The parameter MAXBITS, fixed for a machine (R6); CAP shows it (R28). -/
  maxBits : Nat
  /-- KEY = BUF[0], position 0 first (R22). -/
  key : Bits
  /-- DATA = BUF[1] (R22). -/
  data : Bits
  /-- RES = BUF[2] (R22). -/
  res : Bits
  /-- KLEN = LEN[0] (R23). -/
  klen : Word
  /-- DLEN = LEN[1] (R23). -/
  dlen : Word
  /-- RLEN = LEN[2] (R23). -/
  rlen : Word
  /-- TEXT, entry 0 first (R26). -/
  text : List Word
  /-- TLEN (R23). -/
  tlen : Word
  /-- STATUS.DONE (R29). -/
  done : Bool
  /-- STATUS.TRAIL (R29). -/
  trail : Bool
  /-- STATUS.HZD, sticky (R31). -/
  hzd : Bool
  /-- STATUS.ERR (R29, R160). -/
  err : ErrCode
  /-- EINFO (R32). -/
  einfo : Word
  /-- PEND, which is STATUS.BUSY (R34). -/
  pend : Bool
  /-- PCMD, the latched command word (R34). -/
  pcmd : Word
  /-- The model's own: the statements the host has still to run (R35, R91; log 8). -/
  host : List HostStmt
  /-- The model's own: the words that host reads have returned, newest first (R57; log 8). -/
  returned : List Word
  /-- The model's own: who takes the next steps, first first (R9, R64; log 7). -/
  turns : List Turn
  /-- The model's own: how many free values have been drawn (log 6). -/
  draws : Nat
  deriving DecidableEq, Repr

/-- The state right after reset (R37) of the reference instance MAXBITS = 128 (log 1): lengths, STATUS, EINFO and
PEND are 0. What R37 leaves UNSPECIFIED is 0 here by DESIGN CHOICE: the buffers and TEXT (log 2), PCMD (log 3).
The agents around the block have nothing to do yet (logs 6, 7, 8). -/
def State.reset : State where
  maxBits := Config.referenceMaxBits
  key := List.replicate Config.referenceMaxBits false
  data := List.replicate Config.referenceMaxBits false
  res := List.replicate Config.referenceMaxBits false
  klen := 0#32
  dlen := 0#32
  rlen := 0#32
  text := List.replicate (Config.referenceMaxBits / 8) 0#32
  tlen := 0#32
  done := false
  trail := false
  hzd := false
  err := .none
  einfo := 0#32
  pend := false
  pcmd := 0#32
  host := []
  returned := []
  turns := []
  draws := 0

end Sys2Proof.Machine
end

