-- ==== Sys2Proof/Machine/Flags.lean ====
section
/-! DEFINITION. STATUS: its fields as the host reads them (10_state.md R29), and the two updates that are the only
ones to write BUSY, DONE, TRAIL, ERR and EINFO besides reset (R30). -/

namespace Sys2Proof.Machine

/-- The number of an error code in STATUS.ERR (R160). -/
def errNumber : ErrCode → BitVec 4
  | .none => 0#4
  | .illegalCmd => 1#4
  | .lenRange => 2#4
  | .lengthMismatch => 3#4
  | .codeRange => 4#4

/-- STATUS as the host reads it: reserved 31:12, ERR 11:8, reserved 7:4, HZD, TRAIL, DONE, BUSY (R29). -/
def State.status (s : State) : Word :=
  0#20 ++ errNumber s.err ++ 0#4 ++ BitVec.ofBool s.hzd ++ BitVec.ofBool s.trail ++ BitVec.ofBool s.done ++
    BitVec.ofBool s.pend

/-- Acceptance of the command word `v` (R101). -/
def State.accept (s : State) (v : Word) : State :=
  { s with pcmd := v, pend := true, done := false, trail := false, err := .none, einfo := 0#32 }

/-- The status part of a completion: the outcome recorded, PEND <- 0, DONE <- 1 (R104). -/
def State.finish (s : State) (code : ErrCode) (info : Word) (trail : Bool) : State :=
  { s with err := code, einfo := info, trail := trail, pend := false, done := true }

end Sys2Proof.Machine
end

