-- ==== Sys2Proof/Machine/Bits.lean ====
section
/-! DEFINITION. The bit-string functions of the spec: values and renderings (00_scope.md R16, R17), the packing of
window words (20_memory.md R54), zero fill (10_state.md R25), and the source's three functions encode, decode and
transform (41_bitcodec.md R120, R125; 42_cipherengine.md R140). -/

namespace Sys2Proof.Machine

/-- The value of a bit string, first bit most significant (R16). -/
def uval : Bits → Nat
  | [] => 0
  | b :: bs => b.toNat * 2 ^ bs.length + uval bs

/-- The 8-bit rendering of a code point, most significant bit first (R17). -/
def bits8 (c : Nat) : Bits := (List.range 8).map fun k => c / 2 ^ (7 - k) % 2 == 1

/-- The number of 8-bit chunks of a string of length `n`, the last one perhaps short (R11). -/
def ceil8 (n : Nat) : Nat := (n + 7) / 8

/-- Position `i` of a bit string; a position it does not have reads 0 (no run reads one, log 15). -/
def bitAt (s : Bits) (i : Nat) : Bool := s.getD i false

/-- `n` entries beginning with `l`, the rest filled with `d` (R25). -/
def fill {α : Type} (n : Nat) (d : α) (l : List α) : List α := l.take n ++ List.replicate (n - l.length) d

/-- The source's `encode`: each code point in 8 bits, in character order (R120). -/
def encodeText (t : List Word) : Bits := t.flatMap fun c => bits8 c.toNat

/-- Chunk `j` of a bit string: positions 8j to 8j+7, or fewer where the string ends (R125, R126). -/
def chunk (s : Bits) (j : Nat) : Bits := (s.drop (8 * j)).take 8

/-- The source's `decode`: the value of each chunk, in order, zero-extended to a word (R125, R126). -/
def decodeBits (s : Bits) : List Word :=
  (List.range (ceil8 s.length)).map fun j => BitVec.ofNat 32 (uval (chunk s j))

/-- The source's `transform` on strings of equal length: XOR position by position (R140). The command that uses
it has checked that the lengths are equal (R142). -/
def transform (k d : Bits) : Bits := List.zipWith Bool.xor k d

/-- The least index of a code point above 255 (R122). -/
def firstAbove255 (t : List Word) : Option Nat := t.findIdx? fun c => decide (255 < c.toNat)

/-- Window word `w` of a bit buffer: its value is that of positions 32w to 32w+31 (R54). -/
def packWord (s : Bits) (w : Nat) : Word := BitVec.ofNat 32 (uval ((s.drop (32 * w)).take 32))

/-- The 32 bits of a word in position order: position k is bit 31-k (R54). -/
def unpackWord (v : Word) : Bits := (List.range 32).map fun k => v.getLsbD (31 - k)

/-- A bit buffer with window word `w` replaced by `v` (R58). -/
def putWord (s : Bits) (w : Nat) (v : Word) : Bits := s.take (32 * w) ++ unpackWord v ++ s.drop (32 * w + 32)

end Sys2Proof.Machine
end

