-- ==== Sys2Proof/Machine/Operands.lean ====
section
/-! DEFINITION. The operands of the commands: bit buffers with their length registers, TEXT with TLEN
(10_state.md R12, R21 to R26), and the address map of the host port (20_memory.md R52, R53, R59). -/

namespace Sys2Proof.Machine

/-- The number of a bit buffer in BUF and LEN (R12). -/
def bufNumber : Buf → Nat
  | .key => 0
  | .data => 1
  | .res => 2

/-- MAXWORDS (R7). -/
def State.maxWords (s : State) : Nat := s.maxBits / 32

/-- MAXCHARS (R7). -/
def State.maxChars (s : State) : Nat := s.maxBits / 8

/-- BUF[a] (R12). -/
def State.buf (s : State) : Buf → Bits
  | .key => s.key
  | .data => s.data
  | .res => s.res

/-- LEN[a] (R12). -/
def State.len (s : State) : Buf → Word
  | .key => s.klen
  | .data => s.dlen
  | .res => s.rlen

/-- BUF[a] replaced whole. -/
def State.setBuf (s : State) (a : Buf) (b : Bits) : State :=
  match a with
  | .key => { s with key := b }
  | .data => { s with data := b }
  | .res => { s with res := b }

/-- LEN[a] <- n (R12). -/
def State.setLen (s : State) (a : Buf) (n : Word) : State :=
  match a with
  | .key => { s with klen := n }
  | .data => { s with dlen := n }
  | .res => { s with rlen := n }

/-- The operand string of a bit buffer: its positions below its length (R24). -/
def State.val (s : State) (a : Buf) : Bits := (s.buf a).take (s.len a).toNat

/-- The text operand: the entries below TLEN (R26). -/
def State.textVal (s : State) : List Word := s.text.take s.tlen.toNat

/-- The offset of a register (R52). -/
def regOffset : Reg → Nat
  | .id => 0x0000
  | .cap => 0x0004
  | .cmd => 0x0008
  | .status => 0x000C
  | .einfo => 0x0010
  | .klen => 0x0020
  | .dlen => 0x0024
  | .rlen => 0x0028
  | .tlen => 0x002C

/-- Where the window of BUF[a] starts (R53). -/
def windowBase (a : Buf) : Nat := 0x1000 * (bufNumber a + 1)

/-- Where the TEXT window starts (R53). -/
def textBase : Nat := 0x4000

/-- The address a host statement's target stands for (R91, R53). -/
def targetAddr : Target → Addr
  | .reg r => BitVec.ofNat 16 (regOffset r)
  | .window b w => BitVec.ofNat 16 (windowBase b + 4 * w)
  | .text j => BitVec.ofNat 16 (textBase + 4 * j)
  | .offset a => a

/-- What stands at an address of the map (R52). -/
inductive Place where
  | reg (r : Reg)
  | window (b : Buf) (w : Nat)
  | text (j : Nat)
  | reserved
  deriving DecidableEq, Repr

/-- The register at a word-aligned offset, if there is one (R52). -/
def regAt (o : Nat) : Option Reg :=
  if o = 0x0000 then some .id
  else if o = 0x0004 then some .cap
  else if o = 0x0008 then some .cmd
  else if o = 0x000C then some .status
  else if o = 0x0010 then some .einfo
  else if o = 0x0020 then some .klen
  else if o = 0x0024 then some .dlen
  else if o = 0x0028 then some .rlen
  else if o = 0x002C then some .tlen
  else none

/-- Window word `w` of BUF[a] where it is below MAXWORDS, else reserved (R53). -/
def windowPlace (maxBits : Nat) (a : Buf) (w : Nat) : Place :=
  if w < maxBits / 32 then .window a w else .reserved

/-- TEXT[j] where j is below MAXCHARS, else reserved (R53). -/
def textPlace (maxBits j : Nat) : Place := if j < maxBits / 8 then .text j else .reserved

/-- The address with its bits 1:0 cleared: they are not decoded (R57, R59). -/
def wordOffset (addr : Addr) : Nat := addr.toNat / 4 * 4

/-- What a word-aligned offset names in a block of capacity `maxBits` (R52, R53, R56). -/
def placeAt (maxBits o : Nat) : Place :=
  if o < 0x1000 then
    match regAt o with
    | some r => .reg r
    | none => .reserved
  else if o < 0x2000 then windowPlace maxBits .key ((o - 0x1000) / 4)
  else if o < 0x3000 then windowPlace maxBits .data ((o - 0x2000) / 4)
  else if o < 0x4000 then windowPlace maxBits .res ((o - 0x3000) / 4)
  else if o < 0x5000 then textPlace maxBits ((o - 0x4000) / 4)
  else .reserved

/-- What a host access at `addr` reaches (R57, R58). -/
def State.place (s : State) (addr : Addr) : Place := placeAt s.maxBits (wordOffset addr)

end Sys2Proof.Machine
end

