-- ==== Sys2Proof/Machine/Ops.lean ====
section
/-! DEFINITION. The shared operations: the completion of a command (40_command_lifecycle.md R104), the recording of
an error, which is this block's whole exception entry (00_scope.md R14; 60_exceptions.md R166), the host's read and
write (20_memory.md R57, R58), and reset (70_reset_and_hazards.md R180). -/

namespace Sys2Proof.Machine

/-- What a successful command writes (R25, R104). -/
inductive Writes where
  /-- nothing (NOP) -/
  | nothing
  /-- a result bit string into BUF[a] and its length register -/
  | buffer (a : Buf) (r : Bits)
  /-- a result text into TEXT and TLEN -/
  | text (t : List Word)
  deriving DecidableEq, Repr

/-- The outcome of a command (R104). -/
inductive CmdOutcome where
  | ok (w : Writes) (trail : Bool)
  | error (code : ErrCode) (info : Word)
  deriving DecidableEq, Repr

/-- Apply the writes of a successful command, zero fill included (R25). -/
def Writes.apply (w : Writes) (s : State) : State :=
  match w with
  | .nothing => s
  | .buffer a r => (s.setBuf a (fill s.maxBits false r)).setLen a (BitVec.ofNat 32 r.length)
  | .text t => { s with text := fill s.maxChars 0#32 t, tlen := BitVec.ofNat 32 t.length }

/-- `raise Error(code, info)` (R14): nothing is written but STATUS and EINFO; no trap is taken, no state is
saved, control goes nowhere (R166). The record lasts until the next acceptance; there is no return (R167). -/
def raiseError (code : ErrCode) (info : Word) (s : State) : State := s.finish code info false

/-- Completion (R104). -/
def complete (o : CmdOutcome) (s : State) : State :=
  match o with
  | .ok w trail => (w.apply s).finish .none 0#32 trail
  | .error code info => raiseError code info s

/-- The id of a bit buffer's length register in EINFO (R160). -/
def lenId (a : Buf) : Word := BitVec.ofNat 32 (bufNumber a)

/-- The id of TLEN in EINFO (R160). -/
def textId : Word := 3#32

/-- Executing an illegal word (R107). -/
def execIllegal (w : Word) (s : State) : State := complete (.error .illegalCmd w) s

/-- A host read that returns a stored or constant word changes nothing (R57, R61). -/
def readStored (v : Word) (s : State) : Word × State := (v, s)

/-- A host read of an operand: the stored word while BUSY = 0, a fresh free word while BUSY = 1 (R57, R185). -/
def readOperand (v : Word) (s : State) : Word × State :=
  if s.pend then (Config.busyRead s.draws, { s with draws := s.draws + 1 }) else (v, s)

/-- Host read `MemRead(addr, 4)`: the word returned and the state after it (R57). -/
def hostRead (addr : Addr) (s : State) : Word × State :=
  match s.place addr with
  | .reg .id => readStored Config.idWord s
  | .reg .cap => readStored (BitVec.ofNat 32 s.maxBits) s
  | .reg .cmd => readStored 0#32 s
  | .reg .status => readStored s.status s
  | .reg .einfo => readStored s.einfo s
  | .reg .klen => readOperand s.klen s
  | .reg .dlen => readOperand s.dlen s
  | .reg .rlen => readOperand s.rlen s
  | .reg .tlen => readOperand s.tlen s
  | .window a w => readOperand (packWord (s.buf a) w) s
  | .text j => readOperand (s.text.getD j 0#32) s
  | .reserved => readStored 0#32 s

/-- A host write while BUSY = 0 (R58, R101). -/
def writeIdle (addr : Addr) (v : Word) (s : State) : State :=
  match s.place addr with
  | .reg .cmd => s.accept v
  | .reg .klen => { s with klen := v }
  | .reg .dlen => { s with dlen := v }
  | .reg .rlen => { s with rlen := v }
  | .reg .tlen => { s with tlen := v }
  | .window a w => s.setBuf a (putWord (s.buf a) w v)
  | .text j => { s with text := s.text.set j v }
  | .reg .id => s
  | .reg .cap => s
  | .reg .status => s
  | .reg .einfo => s
  | .reserved => s

/-- Host write `MemWrite(addr, 4, v)`: dropped with HZD while BUSY = 1, whatever the address (R58, R184). -/
def hostWrite (addr : Addr) (v : Word) (s : State) : State :=
  if s.pend then { s with hzd := true } else writeIdle addr v s

/-- The contents of a bit buffer after a reset event: a free value at every position (R37, 93 U1; log 4). -/
def resetBits (s : State) (a : Buf) : Bits :=
  (List.range s.maxBits).map fun p => Config.resetBit s.draws (bufNumber a) p

/-- The reset event (R180): every piece of the block's state to its value in R37, the UNSPECIFIED ones to free
values (log 4). A pending command is discarded. The host and the turns are no part of the block (log 14). -/
def resetBlock (s : State) : State :=
  { s with
    key := resetBits s .key
    data := resetBits s .data
    res := resetBits s .res
    klen := 0#32
    dlen := 0#32
    rlen := 0#32
    text := (List.range s.maxChars).map fun j => Config.resetText s.draws j
    tlen := 0#32
    done := false
    trail := false
    hzd := false
    err := .none
    einfo := 0#32
    pend := false
    pcmd := Config.resetPcmd s.draws
    draws := s.draws + 1 }

/-- Record the word a host read returned (log 8). -/
def State.logRead (s : State) (v : Word) : State := { s with returned := v :: s.returned }

/-- A host read as the host makes it: perform it and record the word returned. -/
def readAndLog (addr : Addr) (s : State) : State := (hostRead addr s).2.logRead (hostRead addr s).1

/-- Run one host statement; `rest` is the host's program after it (R91, R92). POLL reads STATUS, and stays the
next statement while bit 0 of the word read is 1. -/
def hostStmt (st : HostStmt) (rest : List HostStmt) (s : State) : State :=
  match st with
  | .wr t v => hostWrite (targetAddr t) v { s with host := rest }
  | .rd t => readAndLog (targetAddr t) { s with host := rest }
  | .poll =>
    if (hostRead (targetAddr (.reg .status)) s).1.getLsbD 0 then readAndLog (targetAddr (.reg .status)) s
    else readAndLog (targetAddr (.reg .status)) { s with host := rest }

/-- The host's step: its next statement, or nothing when its program is over (R190; log 12). -/
def hostTurn (s : State) : State :=
  match s.host with
  | [] => s
  | st :: rest => hostStmt st rest s

/-- Who steps next, and the state with that turn taken (R9, R64). Where the list of turns is used up, a pending
command executes (weak fairness, R108; log 7), and else the host goes on. -/
def nextTurn (s : State) : Turn × State :=
  match s.turns with
  | t :: rest => (t, { s with turns := rest })
  | [] => (if s.pend then .engine else .host, s)

end Sys2Proof.Machine
end

