-- ==== Sys2Proof/Machine/BitCodec.lean ====
section
/-! DEFINITION. The meanings of the BitCodec unit's commands, ENCODE and DECODE (41_bitcodec.md). -/

namespace Sys2Proof.Machine

/-- The outcome of ENCODE into BUF[a], with its checks in order (R105, R121 to R123). -/
def encodeOutcome (a : Buf) (s : State) : CmdOutcome :=
  if s.maxChars < s.tlen.toNat then .error .lenRange textId
  else
    match firstAbove255 s.textVal with
    | some j => .error .codeRange (BitVec.ofNat 32 j)
    | none => .ok (.buffer a (encodeText s.textVal)) false

/-- The outcome of DECODE of BUF[a], with its check (R105, R125 to R128). -/
def decodeOutcome (a : Buf) (s : State) : CmdOutcome :=
  if s.maxBits < (s.len a).toNat then .error .lenRange (lenId a)
  else .ok (.text (decodeBits (s.val a))) (decide ((s.len a).toNat % 8 ≠ 0))

/-- ENCODE KEY (R121). -/
def execEncodeKey (s : State) : Host.Outcome State Fault Refusal := .next (complete (encodeOutcome .key s) s)

/-- ENCODE DATA (R121). -/
def execEncodeData (s : State) : Host.Outcome State Fault Refusal := .next (complete (encodeOutcome .data s) s)

/-- ENCODE RES (R121). -/
def execEncodeRes (s : State) : Host.Outcome State Fault Refusal := .next (complete (encodeOutcome .res s) s)

/-- DECODE KEY (R125). -/
def execDecodeKey (s : State) : Host.Outcome State Fault Refusal := .next (complete (decodeOutcome .key s) s)

/-- DECODE DATA (R125). -/
def execDecodeData (s : State) : Host.Outcome State Fault Refusal := .next (complete (decodeOutcome .data s) s)

/-- DECODE RES (R125). -/
def execDecodeRes (s : State) : Host.Outcome State Fault Refusal := .next (complete (decodeOutcome .res s) s)

end Sys2Proof.Machine
end

