-- ==== Sys2Proof/Machine/CipherEngine.lean ====
section
/-! DEFINITION. The meanings of the CipherEngine unit's command, XOR (42_cipherengine.md). -/

namespace Sys2Proof.Machine

/-- The outcome of XOR into BUF[a], with its checks in order (R105, R141 to R143). The sources are KEY and DATA
whatever the destination, read before anything is written (R103, R145). -/
def xorOutcome (a : Buf) (s : State) : CmdOutcome :=
  if s.maxBits < s.klen.toNat then .error .lenRange (lenId .key)
  else if s.maxBits < s.dlen.toNat then .error .lenRange (lenId .data)
  else if s.klen ≠ s.dlen then .error .lengthMismatch 0#32
  else .ok (.buffer a (transform (s.val .key) (s.val .data))) false

/-- XOR KEY (R141, R145). -/
def execXorKey (s : State) : Host.Outcome State Fault Refusal := .next (complete (xorOutcome .key s) s)

/-- XOR DATA (R141, R145). -/
def execXorData (s : State) : Host.Outcome State Fault Refusal := .next (complete (xorOutcome .data s) s)

/-- XOR RES (R141). -/
def execXorRes (s : State) : Host.Outcome State Fault Refusal := .next (complete (xorOutcome .res s) s)

end Sys2Proof.Machine
end

