-- ==== Sys2Proof/Machine/Lifecycle.lean ====
section
/-! DEFINITION. The meaning of NOP (40_command_lifecycle.md R106). -/

namespace Sys2Proof.Machine

/-- NOP: nothing is written but the status of a completion (R106). -/
def execNop (s : State) : Host.Outcome State Fault Refusal := .next (complete (.ok .nothing false) s)

end Sys2Proof.Machine
end

