-- ==== Sys2Proof/Machine/Dispatch.lean ====
section
/-! DEFINITION. The dispatch of a decoded command to its meaning, one arm per constructor. -/

namespace Sys2Proof.Machine

def exec (i : Instr) (s : State) : Host.Outcome State Fault Refusal :=
  match i with
  | .nop => Sys2Proof.Machine.execNop s
  | .encodeKey => Sys2Proof.Machine.execEncodeKey s
  | .encodeData => Sys2Proof.Machine.execEncodeData s
  | .encodeRes => Sys2Proof.Machine.execEncodeRes s
  | .decodeKey => Sys2Proof.Machine.execDecodeKey s
  | .decodeData => Sys2Proof.Machine.execDecodeData s
  | .decodeRes => Sys2Proof.Machine.execDecodeRes s
  | .xorKey => Sys2Proof.Machine.execXorKey s
  | .xorData => Sys2Proof.Machine.execXorData s
  | .xorRes => Sys2Proof.Machine.execXorRes s

end Sys2Proof.Machine
end

