-- ==== Sys2Proof/Machine/Engine.lean ====
section
/-! DEFINITION. The engine's step (40_command_lifecycle.md R103, R105): decode PCMD and execute it. -/

namespace Sys2Proof.Machine

/-- Execute the command word `w`: the command it decodes to, or the illegal word (R105, R107). -/
def execWord (w : Word) (s : State) : Host.Outcome State Fault Refusal :=
  match decode w with
  | .cmd i => exec i s
  | .illegal _ v => .next (execIllegal v s)

/-- The engine's turn: it has a step exactly when PEND = 1 (R103); with PEND = 0 it is idle (R175; log 12). -/
def engineTurn (s : State) : Host.Outcome State Fault Refusal :=
  if s.pend then execWord s.pcmd s else .next s

/-- One agent's turn. -/
def runTurn (t : Turn) (s : State) : Host.Outcome State Fault Refusal :=
  match t with
  | .host => .next (hostTurn s)
  | .engine => engineTurn s
  | .reset => .next (resetBlock s)

/-- A pending command placed where the engine's next turn takes it (log 9): accepted as a CMD write accepts it
(R101), with the very next turn the engine's. -/
def State.withCommand (s : State) (w : Word) : State :=
  { s.accept w with turns := .engine :: s.turns }

end Sys2Proof.Machine
end

