-- ==== Sys2Proof/Machine/Step.lean ====
section
/-! DEFINITION. One step of the machine: the agent whose turn it is takes its atomic step (00_scope.md R9;
20_memory.md R60, R64). -/

namespace Sys2Proof.Machine

/-- One step. -/
def step (s : State) : Host.Outcome State Fault Refusal :=
  runTurn (nextTurn s).1 (nextTurn s).2

/-- `s` with the table row's word as the pending command and the next turn the engine's, so that the very next
step decodes and runs it (log 9). -/
def State.withFetchWord (s : State) (nbits w : Nat) : State := s.withCommand (tableWord nbits w)

end Sys2Proof.Machine
end

