-- ==== Sys2Proof/Machine/Assembler.lean ====
section
/-! DEFINITION. The assembly of commands and the host's pseudo-instructions (30_encoding.md R90 to R92). Text is a
list of characters. -/

namespace Sys2Proof.Machine

/-- A command mnemonic standing alone: a write of its word to CMD (R91). -/
def HostStmt.command (i : Instr) : HostStmt := .wr (.reg .cmd) (encode i)

/-- `.cmd`: a word written to CMD. R90 gives it for illegal words; that it may spell a legal word too is the model's
DESIGN CHOICE (log 16). -/
def HostStmt.dotCmd (w : Word) : HostStmt := .wr (.reg .cmd) w

/-- `RUN <cmd>` (R92). -/
def pseudoRun (i : Instr) : List HostStmt := [HostStmt.command i, .poll]

/-- `ENCRYPT` (R92). -/
def pseudoEncrypt : List HostStmt := pseudoRun .encodeData ++ pseudoRun .xorRes

/-- `DECRYPT` (R92). -/
def pseudoDecrypt : List HostStmt := pseudoRun .xorRes ++ pseudoRun .decodeRes

/-- `CLEARST` (R92). -/
def pseudoClearst : List HostStmt := pseudoRun .nop

/-- The name of a bit buffer (R90). -/
def bufName : Buf → List Char
  | .key => ['K', 'E', 'Y']
  | .data => ['D', 'A', 'T', 'A']
  | .res => ['R', 'E', 'S']

/-- The text of a command (R90). -/
def commandText : Instr → List Char
  | .nop => ['N', 'O', 'P']
  | .encodeKey => ['E', 'N', 'C', 'O', 'D', 'E', ' '] ++ bufName .key
  | .encodeData => ['E', 'N', 'C', 'O', 'D', 'E', ' '] ++ bufName .data
  | .encodeRes => ['E', 'N', 'C', 'O', 'D', 'E', ' '] ++ bufName .res
  | .decodeKey => ['D', 'E', 'C', 'O', 'D', 'E', ' '] ++ bufName .key
  | .decodeData => ['D', 'E', 'C', 'O', 'D', 'E', ' '] ++ bufName .data
  | .decodeRes => ['D', 'E', 'C', 'O', 'D', 'E', ' '] ++ bufName .res
  | .xorKey => ['X', 'O', 'R', ' '] ++ bufName .key
  | .xorData => ['X', 'O', 'R', ' '] ++ bufName .data
  | .xorRes => ['X', 'O', 'R', ' '] ++ bufName .res

/-- The pieces of a line between blanks, empty ones among them. -/
def splitBlanks : List Char → List (List Char)
  | [] => [[]]
  | c :: cs =>
    if c = ' ' then [] :: splitBlanks cs
    else
      match splitBlanks cs with
      | [] => [[c]]
      | t :: ts => (c :: t) :: ts

/-- The tokens of a line, in capitals: mnemonics and names are case-insensitive (R90; log 16). -/
def tokensOf (line : List Char) : List (List Char) :=
  (splitBlanks (line.map Char.toUpper)).filter fun t => !t.isEmpty

/-- The bit buffer of a name in capitals (R90). -/
def bufOfName (t : List Char) : Option Buf :=
  if t = bufName .key then some .key
  else if t = bufName .data then some .data
  else if t = bufName .res then some .res
  else none

/-- The digits of a hexadecimal number, in capitals, least value first. -/
def hexDigits : List Char :=
  ['0', '1', '2', '3', '4', '5', '6', '7', '8', '9', 'A', 'B', 'C', 'D', 'E', 'F']

/-- The value of a hexadecimal digit in capitals. -/
def hexValue (c : Char) : Option Nat := hexDigits.findIdx? fun d => d == c

/-- The value of a string of hexadecimal digits in capitals, given the value read before it. -/
def hexNumber : Nat → List Char → Option Nat
  | n, [] => some n
  | n, c :: cs =>
    match hexValue c with
    | some d => hexNumber (16 * n + d) cs
    | none => none

/-- The operand of `.cmd`: `0x` and exactly eight hexadecimal digits (R90; log 16). The word is not checked for being
illegal: that `.cmd` may spell one of the ten legal words is the model's DESIGN CHOICE (log 16). -/
def dotCmdOperand : List Char → Option Word
  | '0' :: 'X' :: ds => if ds.length = 8 then (hexNumber 0 ds).map (BitVec.ofNat 32) else none
  | _ => none

/-- A word as eight hexadecimal digits, most significant first. -/
def hexText (w : Word) : List Char :=
  (List.range 8).map fun k => hexDigits.getD (w.toNat / 16 ^ (7 - k) % 16) '0'

/-- The text of `.cmd` with a word (R90; of a legal word by DESIGN CHOICE, log 16). -/
def dotCmdText (w : Word) : List Char := ['.', 'c', 'm', 'd', ' ', '0', 'x'] ++ hexText w

/-- A command with a buffer operand, from its two tokens (R90). -/
def assembleOperand (t : List Char) (make : Buf → Instr) : Option Word :=
  (bufOfName t).map fun b => encode (make b)

/-- The word a line of command text assembles to, none where the line is no command (R90). R90 gives `.cmd` for an
illegal word only and leaves open whether it may spell a legal one; here it assembles for every word: the model's
DESIGN CHOICE (log 16). -/
def assemble (line : List Char) : Option Word :=
  match tokensOf line with
  | [m] => if m = ['N', 'O', 'P'] then some (encode .nop) else none
  | [m, t] =>
    if m = ['E', 'N', 'C', 'O', 'D', 'E'] then assembleOperand t Instr.encodeInto
    else if m = ['D', 'E', 'C', 'O', 'D', 'E'] then assembleOperand t Instr.decodeFrom
    else if m = ['X', 'O', 'R'] then assembleOperand t Instr.xorInto
    else if m = ['.', 'C', 'M', 'D'] then dotCmdOperand t
    else none
  | _ => none

end Sys2Proof.Machine
end

