-- ==== Sys2Proof/Safety.lean ====
section
/-! DEFINITION. What claims are stated in: the form of the operand store, the invariant of the block, when a command
finds its operands in order, what a completion records, and what an event leaves alone. -/

namespace Sys2Proof.Machine

/-- The canonical form of the operand store: each bit buffer has exactly MAXBITS positions and TEXT exactly MAXCHARS
entries (R20, R22, R26), so equal contents are equal data (log 10). -/
abbrev Memory.wf (s : State) : Prop :=
  s.key.length = s.maxBits ∧ s.data.length = s.maxBits ∧ s.res.length = s.maxBits ∧
    s.text.length = s.maxBits / 8

/-- The outcome fields are clear while a command is pending, as its acceptance left them (R30, R101). -/
abbrev State.PendingClear (s : State) : Prop :=
  s.pend = true → s.done = false ∧ s.trail = false ∧ s.err = .none ∧ s.einfo = 0#32

/-- EINFO is 0 when ERR is 0 (R32), and TRAIL is 1 only with ERR 0 (R30, R104). -/
abbrev State.OutcomeConsistent (s : State) : Prop :=
  (s.err = .none → s.einfo = 0#32) ∧ (s.trail = true → s.err = .none)

/-- The invariant of the block: MAXBITS is legal (R6), the operand store has its form, and the outcome fields
agree with one another and with BUSY. -/
abbrev State.Inv (s : State) : Prop :=
  Config.LegalMaxBits s.maxBits ∧ Memory.wf s ∧ s.PendingClear ∧ s.OutcomeConsistent

/-- No host write has been dropped: the premise the spec gives for what the host knows of its commands (R186,
93 U13). -/
abbrev State.ProtocolOk (s : State) : Prop := s.hzd = false

/-- What ENCODE asks of its operands (R122, R123). -/
abbrev State.EncodeReady (s : State) : Prop :=
  s.tlen.toNat ≤ s.maxChars ∧ ∀ c ∈ s.textVal, c.toNat ≤ 255

/-- What DECODE of BUF[a] asks of its operands (R128). -/
abbrev State.DecodeReady (s : State) (a : Buf) : Prop := (s.len a).toNat ≤ s.maxBits

/-- What XOR asks of its operands (R142, R143). -/
abbrev State.XorReady (s : State) : Prop := s.klen.toNat ≤ s.maxBits ∧ s.klen = s.dlen

/-- What a completion records in STATUS and EINFO (R104). -/
abbrev State.Recorded (t : State) (code : ErrCode) (info : Word) (trail : Bool) : Prop :=
  t.pend = false ∧ t.done = true ∧ t.err = code ∧ t.einfo = info ∧ t.trail = trail

/-- BUF[a] and LEN[a] are as they were. -/
abbrev SameBuf (a : Buf) (s t : State) : Prop := t.buf a = s.buf a ∧ t.len a = s.len a

/-- TEXT and TLEN are as they were. -/
abbrev SameText (s t : State) : Prop := t.text = s.text ∧ t.tlen = s.tlen

/-- Every operand of the block is as it was: the three bit buffers, TEXT and the four length registers. -/
abbrev SameOperands (s t : State) : Prop :=
  SameBuf .key s t ∧ SameBuf .data s t ∧ SameBuf .res s t ∧ SameText s t

/-- Everything outside the engine is as it was: the host's program and what it has read, the turns, the draws. -/
abbrev SameAgents (s t : State) : Prop :=
  t.host = s.host ∧ t.returned = s.returned ∧ t.turns = s.turns ∧ t.draws = s.draws

/-- What no completion writes (R20, R30, R31): MAXBITS, HZD, PCMD, and everything outside the engine. -/
abbrev CompletionFrame (s t : State) : Prop :=
  t.maxBits = s.maxBits ∧ t.hzd = s.hzd ∧ t.pcmd = s.pcmd ∧ SameAgents s t

/-- The status fields and EINFO, the latch and HZD are as they were. -/
abbrev SameStatus (s t : State) : Prop :=
  t.pend = s.pend ∧ t.done = s.done ∧ t.trail = s.trail ∧ t.hzd = s.hzd ∧ t.err = s.err ∧
    t.einfo = s.einfo ∧ t.pcmd = s.pcmd

/-- The state of the whole block is as it was (R20). -/
abbrev SameBlock (s t : State) : Prop := t.maxBits = s.maxBits ∧ SameOperands s t ∧ SameStatus s t

/-- Two states hold the same operand strings and lengths, whatever stands beyond the lengths (R24). -/
abbrev OperandsAgree (s t : State) : Prop :=
  s.maxBits = t.maxBits ∧ (∀ a, s.len a = t.len a ∧ s.val a = t.val a) ∧ s.tlen = t.tlen ∧
    s.textVal = t.textVal

/-- The engine takes the next step, and `ts` are the turns left after it: the list of turns says so, or it is used
up while a command is pending (log 7). -/
abbrev State.EngineNext (s : State) (ts : List Turn) : Prop :=
  s.turns = .engine :: ts ∨ (s.turns = [] ∧ ts = [] ∧ s.pend = true)

/-- The host takes the next step, and `ts` are the turns left after it. -/
abbrev State.HostNext (s : State) (ts : List Turn) : Prop :=
  s.turns = .host :: ts ∨ (s.turns = [] ∧ ts = [] ∧ s.pend = false)

/-- A run of a host program is over: the host has made its last access and nothing is pending (R190). -/
abbrev State.RunOver (s : State) : Prop := s.host = [] ∧ s.pend = false

/-- The ten legal words with the command each stands for, as R86 lists them. -/
def legalTable : List (Word × Instr) :=
  [(0x00000000#32, .nop),
   (0x00000001#32, .encodeKey), (0x00000011#32, .encodeData), (0x00000021#32, .encodeRes),
   (0x00000002#32, .decodeKey), (0x00000012#32, .decodeData), (0x00000022#32, .decodeRes),
   (0x00000003#32, .xorKey), (0x00000013#32, .xorData), (0x00000023#32, .xorRes)]

/-- The word-aligned offsets the address map leaves reserved in a block of capacity `maxBits`, by the numbers of
R52 and R53: between the registers, above them, window words at or beyond capacity, and above the windows. -/
abbrev ReservedOffset (maxBits o : Nat) : Prop :=
  (0x0014 ≤ o ∧ o ≤ 0x001C) ∨ (0x0030 ≤ o ∧ o ≤ 0x0FFC) ∨
    (0x1000 ≤ o ∧ o ≤ 0x3FFC ∧ maxBits / 32 ≤ o % 0x1000 / 4) ∨
    (0x4000 ≤ o ∧ o ≤ 0x4FFC ∧ maxBits / 8 ≤ o % 0x1000 / 4) ∨ 0x5000 ≤ o

end Sys2Proof.Machine
end

