-- ==== Sys2Proof/Certificates/Slice0/Obligations.lean ====
section
/-! DEFINITION. The statements about the BitCodec block: each says which rule of the spec it formalises, and holds
for every legal MAXBITS, since MAXBITS is a field of the state. -/

open Sys2Proof Sys2Proof.Machine

/-! ### Command words -/

/-- R81, R82, R86: a few command words, written out bit by bit, decode to what they stand for, and words with a
reserved OP, a reserved A, an operand to NOP or a nonzero RSV decode to none. -/
def Obligations.SampleCommandWordsDecode : Prop :=
  decode 0b00000000000000000000000000000000#32 = .cmd .nop ∧
    decode 0b00000000000000000000000000010001#32 = .cmd .encodeData ∧
    decode 0b00000000000000000000000000100010#32 = .cmd .decodeRes ∧
    decode 0b00000000000000000000000000000011#32 = .cmd .xorKey ∧
    decode 0b00000000000000000000000000000100#32 = .illegal .reservedOp 0x4#32 ∧
    decode 0b00000000000000000000000000110001#32 = .illegal .reservedBuffer 0x31#32 ∧
    decode 0b00000000000000000000000000010000#32 = .illegal .nopOperand 0x10#32 ∧
    decode 0b00000000000000000000000100000001#32 = .illegal .reservedBits 0x101#32

/-- R86: of all 2^32 words exactly the ten of the table are legal, each the command the table gives it; every other
word is illegal, and the decoder hands on that very word. -/
def Obligations.LegalWordsAreTheTenOfTheTable : Prop :=
  ∀ w : Word,
    (∀ i, decode w = .cmd i ↔ (w, i) ∈ legalTable) ∧
      ((∀ i, (w, i) ∉ legalTable) → ∃ why, decode w = .illegal why w)

/-- R85: a word is legal exactly when RSV is 0 and it is NOP with A = 0, or ENCODE, DECODE or XOR with A other than 3;
executing any other word completes with ILLEGAL_CMD and EINFO the word. -/
def Obligations.LegalityIsDecidedByTheFields : Prop :=
  ∀ w : Word,
    ((∃ i, decode w = .cmd i) ↔
        w.extractLsb' 6 26 = 0#26 ∧
          ((w.extractLsb' 0 4 = 0#4 ∧ w.extractLsb' 4 2 = 0#2) ∨
            ((w.extractLsb' 0 4 = 1#4 ∨ w.extractLsb' 0 4 = 2#4 ∨ w.extractLsb' 0 4 = 3#4) ∧
              w.extractLsb' 4 2 ≠ 3#2))) ∧
      ((¬ ∃ i, decode w = .cmd i) →
        ∀ s : State, ∃ t, execWord w s = .next t ∧ t.Recorded .illegalCmd w false)

/-- Decoder and encoder agree on every word: a word decodes to a command exactly when it is that command's
encoding. -/
def Obligations.DecodeAndEncodeAgree : Prop :=
  ∀ (w : Word) (i : Instr), decode w = .cmd i ↔ w = encode i

/-- R90: the text of every command assembles to its word, and in lower case too. -/
def Obligations.CommandTextAssemblesToItsWord : Prop :=
  ∀ i : Instr,
    assemble (commandText i) = some (encode i) ∧
      assemble ((commandText i).map Char.toLower) = some (encode i)

/-- R90: `.cmd 0x<8 hex digits>` assembles to that word. For the illegal words R90 says so; that it does for the ten
legal words too is the model's choice (log 16). -/
def Obligations.DotCmdAssemblesToItsWord : Prop :=
  ∀ w : Word, assemble (dotCmdText w) = some w

/-! ### The engine's step -/

/-- R103, R105: when the engine steps and the pending word decodes to a command, the step is that command's
execution, with the turn taken off the list of turns (the model's own: log 7). -/
def Obligations.StepRunsTheDecodedCommand : Prop :=
  ∀ (s : State) (ts : List Turn) (i : Instr),
    s.EngineNext ts → s.pend = true → decode s.pcmd = .cmd i → step s = exec i { s with turns := ts }

/-- R107: when the engine steps and the pending word is none of the ten legal words, the step completes with
ILLEGAL_CMD and EINFO the word, whatever the operands hold, and nothing else of the block changes. Whose turn it is comes
from the model's list of turns (log 7). -/
def Obligations.StepOnAnIllegalWordRecordsIllegalCmd : Prop :=
  ∀ (s : State) (ts : List Turn),
    s.EngineNext ts → s.pend = true → (∀ i, (s.pcmd, i) ∉ legalTable) →
      ∃ t, step s = .next t ∧ t.Recorded .illegalCmd s.pcmd false ∧
        SameOperands s t ∧ CompletionFrame { s with turns := ts } t

/-- R175, R103: with PEND = 0 the engine has no step: its turn changes nothing but the list of turns (the model's own:
logs 7, 12). -/
def Obligations.IdleEngineTurnChangesNothing : Prop :=
  ∀ (s : State) (ts : List Turn),
    s.turns = .engine :: ts → s.pend = false → step s = .next { s with turns := ts }

/-- R56, R59, R108, R166: every step answers a next state; no access faults, no trap is taken, no command is refused;
and no step changes MAXBITS (R28). -/
def Obligations.EveryStepAnswersNext : Prop :=
  ∀ s : State, ∃ t, step s = .next t ∧ t.maxBits = s.maxBits

/-! ### NOP -/

/-- R106: NOP, the word 0 only (every other word with OP = 0 is illegal), completes without error, writes no buffer,
length register or TEXT entry, clears ERR, EINFO and TRAIL, and does not clear HZD. -/
def Obligations.NopClearsTheRecordAndWritesNoOperand : Prop :=
  (∀ w : Word, decode w = .cmd .nop ↔ w = 0x00000000#32) ∧
    (∀ w : Word, w.extractLsb' 0 4 = 0#4 → w ≠ 0x00000000#32 → ∃ why, decode w = .illegal why w) ∧
    ∀ s : State, ∃ t, exec .nop s = .next t ∧ t.Recorded .none 0#32 false ∧
      SameOperands s t ∧ CompletionFrame s t ∧
      t.status = if s.hzd then 0x0000000A#32 else 0x00000002#32

/-! ### ENCODE -/

/-- R121, R120, R25: ENCODE KEY, ENCODE DATA and ENCODE RES complete whenever the text fits and every code point is at
most 255: bit k of character j is bit 7-k of its code point, the positions from 8*TLEN on are 0, LEN[a] is 8*TLEN,
and nothing else changes but the status. -/
def Obligations.EncodeWritesTheCodePoints : Prop :=
  ∀ (a : Buf) (s : State), s.Inv → s.EncodeReady →
    ∃ t, exec (Instr.encodeInto a) s = .next t ∧
      (∀ j < s.tlen.toNat, ∀ k < 8, bitAt (t.buf a) (8 * j + k) = (s.text.getD j 0#32).getLsbD (7 - k)) ∧
      (∀ p, 8 * s.tlen.toNat ≤ p → p < s.maxBits → bitAt (t.buf a) p = false) ∧
      (t.buf a).length = s.maxBits ∧
      (t.len a).toNat = 8 * s.tlen.toNat ∧
      t.Recorded .none 0#32 false ∧
      SameText s t ∧ (∀ b, b ≠ a → SameBuf b s t) ∧ CompletionFrame s t

/-- R123: a text longer than MAXCHARS makes ENCODE fail with LEN_RANGE and EINFO 3, whatever its code points; nothing is
written but STATUS and EINFO. -/
def Obligations.EncodeOfATooLongTextFails : Prop :=
  ∀ (a : Buf) (s : State), s.maxChars < s.tlen.toNat →
    ∃ t, exec (Instr.encodeInto a) s = .next t ∧ t.Recorded .lenRange 3#32 false ∧
      SameOperands s t ∧ CompletionFrame s t

/-- R122: a code point above 255 below TLEN makes ENCODE fail with CODE_RANGE and EINFO the least index of one; nothing
is written but STATUS and EINFO. -/
def Obligations.EncodeOfACodePointAbove255Fails : Prop :=
  ∀ (a : Buf) (s : State) (j : Nat), s.tlen.toNat ≤ s.maxChars → j < s.tlen.toNat →
    255 < (s.text.getD j 0#32).toNat → (∀ i < j, (s.text.getD i 0#32).toNat ≤ 255) →
    ∃ t, exec (Instr.encodeInto a) s = .next t ∧ t.Recorded .codeRange (BitVec.ofNat 32 j) false ∧
      SameOperands s t ∧ CompletionFrame s t

/-- R124: after a successful ENCODE, window word w of BUF[a] is the characters 4w to 4w+3 as bytes, first one highest,
with 0 for characters from TLEN on. -/
def Obligations.EncodedWordsHoldFourCharacters : Prop :=
  ∀ (a : Buf) (s t : State) (w : Nat), s.Inv → s.EncodeReady → w < s.maxWords →
    exec (Instr.encodeInto a) s = .next t →
    packWord (t.buf a) w =
      (s.textVal.getD (4 * w) 0#32 <<< 24) ||| (s.textVal.getD (4 * w + 1) 0#32 <<< 16) |||
        (s.textVal.getD (4 * w + 2) 0#32 <<< 8) ||| s.textVal.getD (4 * w + 3) 0#32

/-! ### DECODE -/

/-- R125, R126, R25: DECODE KEY, DECODE DATA and DECODE RES complete whenever the length is within capacity: entry j of
TEXT is the value of positions 8j on, eight of them or as many as the string still has, first one most significant;
the entries from ceil8(LEN[a]) on are 0, TLEN is ceil8(LEN[a]), TRAIL says whether the last chunk was short, and
nothing else changes but the status. -/
def Obligations.DecodeWritesTheChunkValues : Prop :=
  ∀ (a : Buf) (s : State), s.Inv → s.DecodeReady a →
    ∃ t, exec (Instr.decodeFrom a) s = .next t ∧
      (∀ j, 8 * j < (s.len a).toNat →
        (t.text.getD j 0#32).toNat =
          ((List.range (min 8 ((s.len a).toNat - 8 * j))).map fun k =>
            (bitAt (s.buf a) (8 * j + k)).toNat * 2 ^ (min 8 ((s.len a).toNat - 8 * j) - 1 - k)).sum) ∧
      (∀ j, (s.len a).toNat ≤ 8 * j → j < s.maxChars → t.text.getD j 0#32 = 0#32) ∧
      t.text.length = s.maxChars ∧
      t.tlen.toNat = ((s.len a).toNat + 7) / 8 ∧
      t.Recorded .none 0#32 (decide ((s.len a).toNat % 8 ≠ 0)) ∧
      (∀ b, SameBuf b s t) ∧ CompletionFrame s t

/-- R128: a length above MAXBITS makes DECODE fail with LEN_RANGE and EINFO the buffer's number, and nothing is written
but STATUS and EINFO; a length within MAXBITS has at most MAXCHARS chunks. -/
def Obligations.DecodeOfATooLongStringFails : Prop :=
  ∀ (a : Buf) (s : State),
    (s.maxBits < (s.len a).toNat →
      ∃ t, exec (Instr.decodeFrom a) s = .next t ∧
        t.Recorded .lenRange (match a with | .key => 0#32 | .data => 1#32 | .res => 2#32) false ∧
        SameOperands s t ∧ CompletionFrame s t) ∧
      (s.Inv → (s.len a).toNat ≤ s.maxBits → ((s.len a).toNat + 7) / 8 ≤ s.maxChars)

/-- R127: a completion sets TRAIL exactly when it is a DECODE without error whose source length is no multiple of 8;
every other completion, of a legal or an illegal word, clears it. -/
def Obligations.TrailTellsAShortChunkOfADecode : Prop :=
  ∀ (w : Word) (s t : State), execWord w s = .next t →
    (t.trail = true ↔
      ∃ a, decode w = .cmd (Instr.decodeFrom a) ∧ s.DecodeReady a ∧ (s.len a).toNat % 8 ≠ 0)

/-! ### XOR -/

/-- R141, R140, R145, R25: XOR KEY, XOR DATA and XOR RES complete whenever KLEN = DLEN is within capacity: position p is
KEY xor DATA as they were before, in place too; the positions from KLEN on are 0, LEN[a] is KLEN, and nothing
else changes but the status. -/
def Obligations.XorWritesTheTransform : Prop :=
  ∀ (a : Buf) (s : State), s.Inv → s.XorReady →
    ∃ t, exec (Instr.xorInto a) s = .next t ∧
      (∀ p < s.klen.toNat, bitAt (t.buf a) p = (bitAt s.key p != bitAt s.data p)) ∧
      (∀ p, s.klen.toNat ≤ p → p < s.maxBits → bitAt (t.buf a) p = false) ∧
      (t.buf a).length = s.maxBits ∧
      t.len a = s.klen ∧
      t.Recorded .none 0#32 false ∧
      SameText s t ∧ (∀ b, b ≠ a → SameBuf b s t) ∧ CompletionFrame s t

/-- R142: lengths that differ, both within capacity, make XOR fail with LENGTH_MISMATCH and EINFO 0; nothing is written
but STATUS and EINFO. -/
def Obligations.XorOfDifferentLengthsFails : Prop :=
  ∀ (a : Buf) (s : State), s.klen.toNat ≤ s.maxBits → s.dlen.toNat ≤ s.maxBits → s.klen ≠ s.dlen →
    ∃ t, exec (Instr.xorInto a) s = .next t ∧ t.Recorded .lengthMismatch 0#32 false ∧
      SameOperands s t ∧ CompletionFrame s t

/-- R143: KLEN above MAXBITS makes XOR fail with LEN_RANGE and EINFO 0, and else DLEN above MAXBITS with LEN_RANGE and
EINFO 1, whether or not the lengths are equal; nothing is written but STATUS and EINFO. -/
def Obligations.XorOfATooLongOperandFails : Prop :=
  ∀ (a : Buf) (s : State),
    (s.maxBits < s.klen.toNat →
      ∃ t, exec (Instr.xorInto a) s = .next t ∧ t.Recorded .lenRange 0#32 false ∧
        SameOperands s t ∧ CompletionFrame s t) ∧
      (s.klen.toNat ≤ s.maxBits → s.maxBits < s.dlen.toNat →
        ∃ t, exec (Instr.xorInto a) s = .next t ∧ t.Recorded .lenRange 1#32 false ∧
          SameOperands s t ∧ CompletionFrame s t)

/-- R144: with both lengths 0 XOR completes without error, sets LEN[a] to 0 and every position of BUF[a] to 0. -/
def Obligations.XorOfEmptyOperandsClearsTheDestination : Prop :=
  ∀ (a : Buf) (s : State), s.klen = 0#32 → s.dlen = 0#32 →
    ∃ t, exec (Instr.xorInto a) s = .next t ∧ t.err = .none ∧ t.len a = 0#32 ∧
      t.buf a = List.replicate s.maxBits false

/-- R148: after a successful XOR, window word w of BUF[a] is (KEY word w xor DATA word w) and M(w), with M(w) the mask of
the positions below the length. -/
def Obligations.XorredWordsAreMaskedByTheLength : Prop :=
  ∀ (a : Buf) (s t : State) (w : Nat) (m : Word), s.Inv → s.XorReady → w < s.maxWords →
    (∀ k < 32, m.getLsbD (31 - k) = decide (32 * w + k < s.klen.toNat)) →
    exec (Instr.xorInto a) s = .next t →
    packWord (t.buf a) w = (packWord s.key w ^^^ packWord s.data w) &&& m

/-- R147: XOR gives the same when KEY and DATA are exchanged, and an all-zero key leaves the data string. -/
def Obligations.XorIsCommutativeWithZeroAsIdentity : Prop :=
  ∀ (a : Buf) (s t : State), s.Inv → s.XorReady → exec (Instr.xorInto a) s = .next t →
    (∀ u, exec (Instr.xorInto a)
        { s with key := s.data, data := s.key, klen := s.dlen, dlen := s.klen } = .next u →
      u.buf a = t.buf a ∧ u.len a = t.len a) ∧
      ((∀ p < s.klen.toNat, bitAt s.key p = false) → t.val a = s.val .data)

/-! ### Laws of the commands -/

/-- R129, first half: ENCODE into a buffer and then DECODE of it give back the text, with TRAIL 0, for every text that
fits and whose code points are at most 255. -/
def Obligations.EncodeThenDecodeGivesBackTheText : Prop :=
  ∀ (a : Buf) (s t u : State), s.Inv → s.EncodeReady →
    exec (Instr.encodeInto a) s = .next t → exec (Instr.decodeFrom a) t = .next u →
    u.textVal = s.textVal ∧ u.tlen = s.tlen ∧ u.err = .none ∧ u.trail = false

/-- R129, second half: DECODE of a buffer and then ENCODE into it give back its bit string when the length is a multiple
of 8; when it is not, the last chunk comes back as eight bits, padded with zeros on the left, and the length is 8*ceil8 of
what it was. -/
def Obligations.DecodeThenEncodePadsTheShortChunk : Prop :=
  ∀ (a : Buf) (s t u : State), s.Inv → s.DecodeReady a →
    exec (Instr.decodeFrom a) s = .next t → exec (Instr.encodeInto a) t = .next u →
    u.err = .none ∧
      ((s.len a).toNat % 8 = 0 → u.val a = s.val a ∧ u.len a = s.len a) ∧
      ((s.len a).toNat % 8 ≠ 0 →
        u.val a = (s.val a).take (8 * ((s.len a).toNat / 8)) ++
          List.replicate (8 - (s.len a).toNat % 8) false ++ (s.val a).drop (8 * ((s.len a).toNat / 8)) ∧
        (u.len a).toNat = 8 * (((s.len a).toNat + 7) / 8))

/-- R146: two XOR DATA in a row, with KEY and KLEN left alone, complete without error and leave DATA's bit string and
DLEN as they were (positions from DLEN on are zero-filled by R25; log 20). -/
def Obligations.XorDataTwiceGivesBackTheData : Prop :=
  ∀ (s t u : State), s.Inv → s.XorReady →
    exec .xorData s = .next t → exec .xorData t = .next u →
    t.err = .none ∧ u.err = .none ∧ u.val .data = s.val .data ∧ u.dlen = s.dlen ∧
      SameBuf .key s u

/-- R24, R162: a command's outcome is a function of the operand strings: from two states that agree on them, whatever
stands beyond the lengths and in everything else, every word leaves states that agree on them again, with the
same ERR, EINFO and TRAIL. -/
def Obligations.OutcomeDependsOnOperandStringsOnly : Prop :=
  ∀ (w : Word) (s s' t t' : State), s.Inv → s'.Inv → OperandsAgree s s' →
    execWord w s = .next t → execWord w s' = .next t' →
    OperandsAgree t t' ∧ t.err = t'.err ∧ t.einfo = t'.einfo ∧ t.trail = t'.trail

/-! ### Errors -/

/-- R160: what each error code means and leaves in EINFO, for a completion of any word: NONE with 0; ILLEGAL_CMD with an
illegal word; LEN_RANGE with the id of a length register above its capacity; LENGTH_MISMATCH of XOR alone, with
0, the lengths differing; CODE_RANGE of ENCODE alone, with the least index of a code point above 255. -/
def Obligations.ErrorCodesSayWhatRaisedThem : Prop :=
  ∀ (w : Word) (s t : State), execWord w s = .next t →
    (t.err = .none → t.einfo = 0#32 ∧ ∃ i, decode w = .cmd i) ∧
      (t.err = .illegalCmd → t.einfo = w ∧ ¬ ∃ i, decode w = .cmd i) ∧
      (t.err = .lenRange →
        (t.einfo = 0#32 ∧ s.maxBits < s.klen.toNat) ∨ (t.einfo = 1#32 ∧ s.maxBits < s.dlen.toNat) ∨
          (t.einfo = 2#32 ∧ s.maxBits < s.rlen.toNat) ∨ (t.einfo = 3#32 ∧ s.maxChars < s.tlen.toNat)) ∧
      (t.err = .lengthMismatch →
        t.einfo = 0#32 ∧ s.klen ≠ s.dlen ∧ ∃ a, decode w = .cmd (Instr.xorInto a)) ∧
      (t.err = .codeRange →
        (∃ a, decode w = .cmd (Instr.encodeInto a)) ∧ t.einfo.toNat < s.tlen.toNat ∧
          255 < (s.text.getD t.einfo.toNat 0#32).toNat ∧
          ∀ j < t.einfo.toNat, (s.text.getD j 0#32).toNat ≤ 255)

/-- R166: a completion that records an error leaves every buffer, length register and TEXT entry as it was, takes no
trap and transfers control nowhere; every completion ends with BUSY 0 and DONE 1. -/
def Obligations.AFailingCommandWritesNoOperand : Prop :=
  ∀ (w : Word) (s t : State), execWord w s = .next t →
    t.pend = false ∧ t.done = true ∧ CompletionFrame s t ∧ (t.err ≠ .none → SameOperands s t)

/-! ### Host writes -/

/-- R101: a write to CMD while BUSY = 0 latches the word and makes it pending, clears DONE, TRAIL, ERR and EINFO, and
changes nothing else, HZD included; every word is accepted. -/
def Obligations.AWriteToCmdIsAccepted : Prop :=
  ∀ (s : State) (v : Word), s.pend = false →
    hostWrite 0x0008#16 v s =
      { s with pcmd := v, pend := true, done := false, trail := false, err := .none, einfo := 0#32 }

/-- R184, R102: a write of the host's while BUSY = 1, whatever its target and word, is dropped: it sets HZD and changes
nothing else of the block. The host's program and the turns are the model's own (logs 7, 8). -/
def Obligations.AWriteWhileBusyIsDropped : Prop :=
  ∀ (s : State) (ts : List Turn) (target : Target) (v : Word) (rest : List HostStmt),
    s.turns = .host :: ts → s.pend = true → s.host = .wr target v :: rest →
      step s = .next { s with hzd := true, host := rest, turns := ts }

/-- R23, R58: while BUSY = 0 each length register stores any word the host writes, reads back that same word, and the
write changes nothing else. -/
def Obligations.LengthRegistersStoreAnyWord : Prop :=
  ∀ (s : State) (v : Word), s.pend = false →
    (hostWrite 0x0020#16 v s = { s with klen := v } ∧ (hostRead 0x0020#16 { s with klen := v }).1 = v) ∧
      (hostWrite 0x0024#16 v s = { s with dlen := v } ∧ (hostRead 0x0024#16 { s with dlen := v }).1 = v) ∧
      (hostWrite 0x0028#16 v s = { s with rlen := v } ∧ (hostRead 0x0028#16 { s with rlen := v }).1 = v) ∧
      (hostWrite 0x002C#16 v s = { s with tlen := v } ∧ (hostRead 0x002C#16 { s with tlen := v }).1 = v)

/-- R53, R54, R58: while BUSY = 0 a write of v to window word w of BUF[a], at byte offset 0x1000*(a+1) + 4w, puts bit
31-k of v at position 32w+k, leaves every other position and everything else as it was, and the word reads back
as v. -/
def Obligations.AWindowWriteStoresItsBits : Prop :=
  ∀ (a : Buf) (s : State) (addr : Addr) (w : Nat) (v : Word), s.Inv → s.pend = false → w < s.maxWords →
    addr.toNat / 4 * 4 = 0x1000 * ((match a with | .key => 0 | .data => 1 | .res => 2) + 1) + 4 * w →
    (∀ k < 32, bitAt ((hostWrite addr v s).buf a) (32 * w + k) = v.getLsbD (31 - k)) ∧
      (∀ p, (p < 32 * w ∨ 32 * w + 32 ≤ p) → bitAt ((hostWrite addr v s).buf a) p = bitAt (s.buf a) p) ∧
      (hostWrite addr v s = s.setBuf a ((hostWrite addr v s).buf a)) ∧
      hostRead addr (hostWrite addr v s) = (v, hostWrite addr v s)

/-- R53, R58, R26: while BUSY = 0 a write of v to window word j of TEXT, at byte offset 0x4000 + 4j, makes TEXT[j] the
whole word v, leaves every other entry and everything else as it was, and the entry reads back as v. -/
def Obligations.ATextWriteStoresItsCodePoint : Prop :=
  ∀ (s : State) (addr : Addr) (j : Nat) (v : Word), s.Inv → s.pend = false → j < s.maxChars →
    addr.toNat / 4 * 4 = 0x4000 + 4 * j →
    (hostWrite addr v s).text.getD j 0#32 = v ∧
      (∀ i, i ≠ j → (hostWrite addr v s).text.getD i 0#32 = s.text.getD i 0#32) ∧
      (hostWrite addr v s = { s with text := (hostWrite addr v s).text }) ∧
      hostRead addr (hostWrite addr v s) = (v, hostWrite addr v s)

/-- R56: a reserved address, window words at or beyond capacity among them, reads 0 without effect; a write to one has no
effect while BUSY = 0, and while BUSY = 1 sets HZD and nothing else. -/
def Obligations.ReservedAddressesReadZero : Prop :=
  ∀ (s : State) (addr : Addr) (v : Word), ReservedOffset s.maxBits (addr.toNat / 4 * 4) →
    hostRead addr s = (0#32, s) ∧ (s.pend = false → hostWrite addr v s = s) ∧
      (s.pend = true → hostWrite addr v s = { s with hzd := true })

/-- R59: bits 1:0 of an address are not decoded: an access at addr is the access at addr & 0xFFFC. -/
def Obligations.TheLowAddressBitsAreNotDecoded : Prop :=
  ∀ (s : State) (addr : Addr) (v : Word),
    hostRead addr s = hostRead (addr &&& 0xFFFC#16) s ∧
      hostWrite addr v s = hostWrite (addr &&& 0xFFFC#16) v s

/-! ### Host reads -/

/-- R27, R28: at any time ID reads 0x42430001 and CAP reads MAXBITS; a write to either is ignored, and while BUSY = 1 sets
HZD. -/
def Obligations.IdAndCapReadTheirConstants : Prop :=
  ∀ (s : State) (v : Word), s.Inv →
    hostRead 0x0000#16 s = (0x42430001#32, s) ∧
      ((hostRead 0x0004#16 s).1.toNat = s.maxBits ∧ (hostRead 0x0004#16 s).2 = s) ∧
      (s.pend = false → hostWrite 0x0000#16 v s = s ∧ hostWrite 0x0004#16 v s = s) ∧
      (s.pend = true → hostWrite 0x0000#16 v s = { s with hzd := true } ∧
        hostWrite 0x0004#16 v s = { s with hzd := true })

/-- R29: at any time STATUS reads BUSY at bit 0, DONE at bit 1, TRAIL at bit 2, HZD at bit 3, the error code at bits
11:8 and 0 at every reserved bit, without side effect; a write to it is ignored, and while BUSY = 1 sets HZD. -/
def Obligations.StatusReadsItsFields : Prop :=
  ∀ (s : State) (v : Word),
    (hostRead 0x000C#16 s).2 = s ∧
      (hostRead 0x000C#16 s).1.getLsbD 0 = s.pend ∧ (hostRead 0x000C#16 s).1.getLsbD 1 = s.done ∧
      (hostRead 0x000C#16 s).1.getLsbD 2 = s.trail ∧ (hostRead 0x000C#16 s).1.getLsbD 3 = s.hzd ∧
      (hostRead 0x000C#16 s).1.extractLsb' 4 4 = 0#4 ∧
      (hostRead 0x000C#16 s).1.extractLsb' 8 4 =
        (match s.err with
          | .none => 0#4 | .illegalCmd => 1#4 | .lenRange => 2#4 | .lengthMismatch => 3#4 | .codeRange => 4#4) ∧
      (hostRead 0x000C#16 s).1.extractLsb' 12 20 = 0#20 ∧
      (s.pend = false → hostWrite 0x000C#16 v s = s) ∧
      (s.pend = true → hostWrite 0x000C#16 v s = { s with hzd := true })

/-- R32, R33: at any time EINFO reads its value and CMD reads 0, without side effect; a write to EINFO is ignored, and
while BUSY = 1 sets HZD. -/
def Obligations.EinfoReadsItsValueAndCmdReadsZero : Prop :=
  ∀ (s : State) (v : Word),
    hostRead 0x0010#16 s = (s.einfo, s) ∧ hostRead 0x0008#16 s = (0#32, s) ∧
      (s.pend = false → hostWrite 0x0010#16 v s = s) ∧
      (s.pend = true → hostWrite 0x0010#16 v s = { s with hzd := true })

/-- R57, R54: while BUSY = 0 a window word below capacity reads the stored positions, position 32w+k at bit 31-k, and a
TEXT entry its code point, without effect. -/
def Obligations.IdleReadsReturnTheStoredWords : Prop :=
  ∀ (s : State) (addr : Addr), s.Inv → s.pend = false →
    (∀ (a : Buf) (w : Nat), w < s.maxWords →
      addr.toNat / 4 * 4 = 0x1000 * ((match a with | .key => 0 | .data => 1 | .res => 2) + 1) + 4 * w →
      (hostRead addr s).2 = s ∧
        ∀ k < 32, (hostRead addr s).1.getLsbD (31 - k) = bitAt (s.buf a) (32 * w + k)) ∧
      (∀ j, j < s.maxChars → addr.toNat / 4 * 4 = 0x4000 + 4 * j →
        hostRead addr s = (s.text.getD j 0#32, s))

/-- R185, R57: while BUSY = 1 a read of a length register or of a window word below capacity returns a free word of the
model's (log 5), a fresh one each time, and changes nothing but the count of draws. Nothing is known of the word, so
the statement holds for every value of it. -/
def Obligations.BusyOperandReadsDrawAFreshWord : Prop :=
  ∀ (s : State) (addr : Addr), s.Inv → s.pend = true →
    ((0x0020 ≤ addr.toNat ∧ addr.toNat ≤ 0x002F) ∨
      (0x1000 ≤ addr.toNat ∧ addr.toNat ≤ 0x3FFF ∧ addr.toNat % 0x1000 / 4 < s.maxWords) ∨
      (0x4000 ≤ addr.toNat ∧ addr.toNat ≤ 0x4FFF ∧ addr.toNat % 0x1000 / 4 < s.maxChars)) →
    hostRead addr s = (Config.busyRead s.draws, { s with draws := s.draws + 1 })

/-- R57, R61: a read of any address at any time changes no state of the block, nor the host's program, what it has
read before, or the turns. -/
def Obligations.AReadChangesNoStateOfTheBlock : Prop :=
  ∀ (s : State) (addr : Addr),
    SameBlock s (hostRead addr s).2 ∧ (hostRead addr s).2.host = s.host ∧
      (hostRead addr s).2.returned = s.returned ∧ (hostRead addr s).2.turns = s.turns

/-! ### The host's statements -/

/-- R91, R57: a step at RD performs the read of its target and returns the word read to the host (the record of
reads, the host's program and the turns are the model's own: logs 7, 8). -/
def Obligations.RdReturnsTheWordRead : Prop :=
  ∀ (s : State) (ts : List Turn) (target : Target) (rest : List HostStmt),
    s.HostNext ts → s.host = .rd target :: rest →
      step s = .next { (hostRead (targetAddr target) s).2 with
        turns := ts
        returned := (hostRead (targetAddr target) s).1 :: s.returned
        host := rest }

/-- R92: a step at POLL reads STATUS; while BUSY = 1 the host stays at POLL, and when it reads BUSY = 0 it goes on (host and
turns are the model's own: logs 7, 8). -/
def Obligations.PollWaitsWhileBusy : Prop :=
  ∀ (s : State) (ts : List Turn) (rest : List HostStmt), s.HostNext ts → s.host = .poll :: rest →
    step s = .next { s with
      turns := ts
      returned := s.status :: s.returned
      host := if s.pend then .poll :: rest else rest }

/-- R92: RUN is the command and then POLL; ENCRYPT is RUN ENCODE DATA and RUN XOR RES; DECRYPT is RUN XOR RES and RUN
DECODE RES; CLEARST is RUN NOP; each command is a write of its word to CMD (R91). -/
def Obligations.PseudoInstructionsExpandAsListed : Prop :=
  (∀ i, pseudoRun i = [.wr (.reg .cmd) (encode i), .poll]) ∧
    pseudoEncrypt = [.wr (.reg .cmd) 0x00000011#32, .poll, .wr (.reg .cmd) 0x00000023#32, .poll] ∧
    pseudoDecrypt = [.wr (.reg .cmd) 0x00000023#32, .poll, .wr (.reg .cmd) 0x00000022#32, .poll] ∧
    pseudoClearst = [.wr (.reg .cmd) 0x00000000#32, .poll] ∧
    targetAddr (.reg .cmd) = 0x0008#16 ∧ targetAddr (.reg .status) = 0x000C#16

/-! ### Whole-machine rules -/

/-- R31: HZD is 1 after a step exactly when the step is no reset and HZD was 1 already or the host wrote while BUSY = 1;
only reset clears it. Who steps comes from the model's turns (log 7). -/
def Obligations.HzdIsStickyUntilReset : Prop :=
  ∀ s t : State, step s = .next t →
    (t.hzd = true ↔
      (nextTurn s).1 ≠ .reset ∧
        (s.hzd = true ∨
          ((nextTurn s).1 = .host ∧ s.pend = true ∧ ∃ target v rest, s.host = .wr target v :: rest)))

/-- R67, R186: the host learns from HZD whether its write to CMD was accepted: when its next statement writes CMD and HZD is
0 after that step, the word is latched and pending with DONE 0. Host and turns are the model's own (logs 7, 8). -/
def Obligations.AWriteToCmdThatLeavesHzdClearWasAccepted : Prop :=
  ∀ (s t : State) (ts : List Turn) (v : Word) (rest : List HostStmt),
    s.HostNext ts → s.host = .wr (.reg .cmd) v :: rest → step s = .next t → t.ProtocolOk →
      t.pend = true ∧ t.pcmd = v ∧ t.done = false ∧ s.pend = false

/-- R190, R175: when a run is over, a step that is no reset changes nothing but the list of turns (the
model's own: logs 7, 12). -/
def Obligations.AFinishedRunStaysFinished : Prop :=
  ∀ s t : State, s.RunOver → (nextTurn s).1 ≠ .reset → step s = .next t → t = { s with turns := t.turns }

/-- R30: a step of the host changes BUSY, DONE, TRAIL, ERR or EINFO only by an accepted write to CMD. Who steps comes
from the model's turns (log 7). -/
def Obligations.TheHostChangesStatusOnlyByAcceptance : Prop :=
  ∀ s t : State, step s = .next t → (nextTurn s).1 = .host →
    (∀ target v rest, s.host = .wr target v :: rest → s.pend = false → (targetAddr target).toNat / 4 ≠ 2) →
    t.pend = s.pend ∧ t.done = s.done ∧ t.trail = s.trail ∧ t.err = s.err ∧ t.einfo = s.einfo ∧
      t.pcmd = s.pcmd

/-- R65, R68: while a command is pending no step of the host changes an operand, the pending word or BUSY: BUSY falls
only by the engine's step or reset. Who steps comes from the model's turns (log 7). -/
def Obligations.OperandsAreFixedWhileACommandIsPending : Prop :=
  ∀ s t : State, step s = .next t → s.pend = true → (nextTurn s).1 = .host →
    t.pend = true ∧ t.pcmd = s.pcmd ∧ t.maxBits = s.maxBits ∧ SameOperands s t

/-- R64, R165 and program 5 of the test vectors: a write to KLEN that races the completion of a pending command has both
outcomes, by the order of the turns: after the engine it is applied, before it it is dropped with HZD; the
command's own result is the same. Host and turns are the model's own (logs 7, 8). -/
def Obligations.AWriteRacingTheEngineHasBothOutcomes : Prop :=
  ∀ (s e : State) (v : Word), s.pend = true → s.host = [.wr (.reg .klen) v] →
    execWord s.pcmd { s with turns := [] } = .next e →
    (Sys2Proof.core.run 2 { s with turns := [.engine, .host] } = .next { e with klen := v, host := [] }) ∧
      (Sys2Proof.core.run 2 { s with turns := [.host, .engine] } = .next { e with hzd := true, host := [] })

/-- R180: reset is one step, whatever else goes on: the lengths, STATUS and EINFO are 0 and nothing is pending after it,
so a pending command is discarded; the buffers, TEXT and PCMD hold free values of the model's (log 4). That
MAXBITS and the host's program are as they were is the model's reading (log 14), and the list of turns its own (log 7). -/
def Obligations.ResetClearsTheBlock : Prop :=
  ∀ (s : State) (ts : List Turn), s.turns = .reset :: ts →
    ∃ t, step s = .next t ∧ t.klen = 0#32 ∧ t.dlen = 0#32 ∧ t.rlen = 0#32 ∧ t.tlen = 0#32 ∧
      t.status = 0#32 ∧ t.einfo = 0#32 ∧ t.pend = false ∧ t.pcmd = Config.resetPcmd s.draws ∧
      Memory.wf t ∧
      (∀ p < s.maxBits, bitAt t.key p = Config.resetBit s.draws 0 p ∧
        bitAt t.data p = Config.resetBit s.draws 1 p ∧ bitAt t.res p = Config.resetBit s.draws 2 p) ∧
      (∀ j < s.maxChars, t.text.getD j 0#32 = Config.resetText s.draws j) ∧
      t.maxBits = s.maxBits ∧ t.host = s.host ∧ t.turns = ts

/-- R37: what the state right after reset holds where the spec gives a value: lengths, STATUS and EINFO 0, nothing
pending, ID and CAP their constants. -/
def Obligations.TheResetStateHoldsTheSpecsValues : Prop :=
  State.reset.klen = 0#32 ∧ State.reset.dlen = 0#32 ∧ State.reset.rlen = 0#32 ∧ State.reset.tlen = 0#32 ∧
    State.reset.status = 0#32 ∧ State.reset.einfo = 0#32 ∧ State.reset.pend = false ∧
    (hostRead 0x0000#16 State.reset).1 = 0x42430001#32 ∧
    (hostRead 0x0004#16 State.reset).1 = BitVec.ofNat 32 State.reset.maxBits

/-- The state right after reset meets the invariant. -/
def Obligations.TheResetStateMeetsTheInvariant : Prop := State.reset.Inv

/-- From every state that meets the invariant, every step (of the host, the engine or reset) gives one that does:
MAXBITS stays legal, every buffer keeps exactly its capacity (R20, R22, R26), the outcome fields stay clear while
a command is pending (R101), EINFO is 0 when ERR is 0 (R32), and TRAIL is 1 only without an error (R30). -/
def Obligations.EveryStepKeepsTheInvariant : Prop :=
  ∀ s t : State, s.Inv → step s = .next t → t.Inv

/-- R108, R68: a pending command completes within the turns to come and one step more; and unless a reset comes, what
it leaves in the operands and in ERR, EINFO and TRAIL is what executing it at once would have left, whatever the
host does meanwhile. That the engine steps once the list of turns is used up is the model's form of weak fairness
(log 7). -/
def Obligations.APendingCommandCompletesAsIssued : Prop :=
  ∀ s : State, s.pend = true →
    ∃ k t, k ≤ s.turns.length + 1 ∧ Sys2Proof.core.run k s = .next t ∧ t.pend = false ∧
      (.reset ∉ s.turns →
        t.done = true ∧ ∃ u, execWord s.pcmd s = .next u ∧ SameOperands u t ∧ t.err = u.err ∧
          t.einfo = u.einfo ∧ t.trail = u.trail)
end

