-- ==== Sys2Proof/Laws/Bits.lean ====
section
/-! SUPPORT. What the bit-string functions do: lengths, single positions, values. -/

namespace Sys2Proof.Machine

/-! ### lengths -/

@[simp] theorem bits8_length (c : Nat) : (bits8 c).length = 8 := by simp [bits8]

@[simp] theorem encodeText_length (t : List Word) : (encodeText t).length = 8 * t.length := by
  induction t with
  | nil => rfl
  | cons c t ih => simp only [encodeText] at ih; simp [encodeText, ih]; omega

@[simp] theorem decodeBits_length (s : Bits) : (decodeBits s).length = ceil8 s.length := by simp [decodeBits]

@[simp] theorem fill_length {α : Type} (n : Nat) (d : α) (l : List α) : (fill n d l).length = n := by
  simp [fill]; omega

@[simp] theorem transform_length (k d : Bits) : (transform k d).length = min k.length d.length := by
  simp [transform]

@[simp] theorem unpackWord_length (v : Word) : (unpackWord v).length = 32 := by simp [unpackWord]

theorem putWord_length {s : Bits} {w : Nat} (h : 32 * w + 32 ≤ s.length) (v : Word) :
    (putWord s w v).length = s.length := by
  simp [putWord]; omega

theorem chunk_length (s : Bits) (j : Nat) : (chunk s j).length = min 8 (s.length - 8 * j) := by simp [chunk]

/-! ### single positions -/

theorem bitAt_of_lt {s : Bits} {i : Nat} (h : i < s.length) : bitAt s i = s[i] := by
  simp [bitAt, List.getD_eq_getElem?_getD, h]

theorem bitAt_of_ge {s : Bits} {i : Nat} (h : s.length ≤ i) : bitAt s i = false := by
  simp [bitAt, List.getD_eq_getElem?_getD, h]

theorem bits_ext {s t : Bits} (hl : s.length = t.length) (h : ∀ i < s.length, bitAt s i = bitAt t i) : s = t := by
  apply List.ext_getElem hl
  intro i hi hi'
  rw [← bitAt_of_lt hi, ← bitAt_of_lt hi']
  exact h i hi

theorem bitAt_take (s : Bits) (n i : Nat) : bitAt (s.take n) i = (decide (i < n) && bitAt s i) := by
  by_cases h : i < n <;> simp [bitAt, List.getD_eq_getElem?_getD, h]

theorem bitAt_append_left {s t : Bits} {i : Nat} (h : i < s.length) : bitAt (s ++ t) i = bitAt s i := by
  simp [bitAt, List.getD_eq_getElem?_getD, List.getElem?_append_left h]

theorem bitAt_append_right {s t : Bits} {i : Nat} (h : s.length ≤ i) :
    bitAt (s ++ t) i = bitAt t (i - s.length) := by
  simp [bitAt, List.getD_eq_getElem?_getD, List.getElem?_append_right h]

theorem bitAt_drop (s : Bits) (n i : Nat) : bitAt (s.drop n) i = bitAt s (n + i) := by
  simp [bitAt, List.getD_eq_getElem?_getD]

theorem bitAt_fill (n : Nat) (s : Bits) (i : Nat) (h : i < n) : bitAt (fill n false s) i = bitAt s i := by
  by_cases hs : i < s.length
  · rw [fill, bitAt_append_left (by simp; omega), bitAt_take]; simp [h]
  · rw [fill, bitAt_append_right (by simp; omega), bitAt_of_ge (s := s) (by omega)]
    simp [bitAt, List.getD_eq_getElem?_getD, List.getElem?_replicate]
    split <;> rfl

theorem take_fill {α : Type} {n : Nat} (d : α) {l : List α} (h : l.length ≤ n) : (fill n d l).take l.length = l := by
  simp [fill, List.take_of_length_le h]

theorem getD_fill {α : Type} {n i : Nat} (d : α) {l : List α} (hl : l.length ≤ n) :
    (fill n d l).getD i d = l.getD i d := by
  by_cases hi : i < l.length
  · simp [fill, List.getD_eq_getElem?_getD, List.take_of_length_le hl, List.getElem?_append_left hi]
  · simp [fill, List.getD_eq_getElem?_getD, List.take_of_length_le hl,
      List.getElem?_append_right (Nat.le_of_not_lt hi), List.getElem?_eq_none (Nat.le_of_not_lt hi),
      List.getElem?_replicate]
    split <;> rfl

theorem bitAt_bits8 (c : Nat) {k : Nat} (h : k < 8) : bitAt (bits8 c) k = (c / 2 ^ (7 - k) % 2 == 1) := by
  rw [bitAt_of_lt (by simpa using h)]; simp [bits8]

/-- Rendering a word's low eight bits, position by position. -/
theorem bitAt_bits8_word (c : Word) {k : Nat} (h : k < 8) : bitAt (bits8 c.toNat) k = c.getLsbD (7 - k) := by
  rw [bitAt_bits8 _ h, BitVec.getLsbD, Nat.testBit_eq_decide_div_mod_eq]; rfl

theorem bitAt_encodeText (t : List Word) {j k : Nat} (hk : k < 8) :
    bitAt (encodeText t) (8 * j + k) = (t.getD j 0#32).getLsbD (7 - k) := by
  induction t generalizing j with
  | nil => simp [encodeText, bitAt]
  | cons c t ih =>
    have e : encodeText (c :: t) = bits8 c.toNat ++ encodeText t := by simp [encodeText]
    cases j with
    | zero => rw [e, bitAt_append_left (by simpa using hk)]; simpa using bitAt_bits8_word c hk
    | succ j =>
      rw [e, bitAt_append_right (by simp; omega), bits8_length,
        show 8 * (j + 1) + k - 8 = 8 * j + k by omega, ih]
      simp

theorem bitAt_transform {k d : Bits} {i : Nat} (hk : i < k.length) (hd : i < d.length) :
    bitAt (transform k d) i = (bitAt k i != bitAt d i) := by
  rw [bitAt_of_lt (by simp; omega), bitAt_of_lt hk, bitAt_of_lt hd]; simp [transform]

theorem bitAt_unpackWord (v : Word) {k : Nat} (h : k < 32) : bitAt (unpackWord v) k = v.getLsbD (31 - k) := by
  rw [bitAt_of_lt (by simpa using h)]; simp [unpackWord]

theorem bitAt_putWord_in {s : Bits} {w : Nat} (h : 32 * w + 32 ≤ s.length) (v : Word) {k : Nat} (hk : k < 32) :
    bitAt (putWord s w v) (32 * w + k) = v.getLsbD (31 - k) := by
  rw [putWord, bitAt_append_left (by simp; omega), bitAt_append_right (by simp)]
  rw [← bitAt_unpackWord v hk]; congr 1; simp; omega

theorem bitAt_putWord_out {s : Bits} {w : Nat} (h : 32 * w + 32 ≤ s.length) (v : Word) {p : Nat}
    (hp : p < 32 * w ∨ 32 * w + 32 ≤ p) : bitAt (putWord s w v) p = bitAt s p := by
  rcases hp with hp | hp
  · rw [putWord, bitAt_append_left (by simp; omega), bitAt_append_left (by simp; omega), bitAt_take]; simp [hp]
  · rw [putWord, bitAt_append_right (by simp; omega), bitAt_drop]; congr 1; simp; omega

/-! ### values -/

theorem uval_lt (s : Bits) : uval s < 2 ^ s.length := by
  induction s with
  | nil => simp [uval]
  | cons b s ih =>
    have hb : b.toNat ≤ 1 := Bool.toNat_le b
    have : b.toNat * 2 ^ s.length ≤ 1 * 2 ^ s.length := Nat.mul_le_mul_right _ hb
    simp only [uval, List.length_cons, Nat.pow_succ]; omega

theorem uval_append (s t : Bits) : uval (s ++ t) = uval s * 2 ^ t.length + uval t := by
  induction s with
  | nil => simp [uval]
  | cons b s ih => simp only [List.cons_append, uval, ih, List.length_append, Nat.pow_add]; ring

@[simp] theorem uval_replicate_false (n : Nat) : uval (List.replicate n false) = 0 := by
  induction n with
  | zero => rfl
  | succ n ih => simp [List.replicate_succ, uval, ih]

/-- The bits of a value are the positions of its string, first position highest. -/
theorem uval_testBit (s : Bits) {i : Nat} (h : i < s.length) :
    (uval s).testBit (s.length - 1 - i) = bitAt s i := by
  induction s generalizing i with
  | nil => simp at h
  | cons b s ih =>
    have hlt := uval_lt s
    rw [uval, Nat.mul_comm, Nat.testBit_two_pow_mul_add _ hlt]
    cases i with
    | zero => cases b <;> simp [bitAt]
    | succ i =>
      have hi : i < s.length := by simpa using h
      rw [if_pos (by simp; omega), show (b :: s).length - 1 - (i + 1) = s.length - 1 - i by simp; omega, ih hi]
      simp [bitAt]

theorem uval_injective {s t : Bits} (hl : s.length = t.length) (h : uval s = uval t) : s = t := by
  refine bits_ext hl fun i hi => ?_
  rw [← uval_testBit s hi, ← uval_testBit t (hl ▸ hi), h, hl]

/-- R16's sum. -/
theorem uval_eq_sum (s : Bits) :
    uval s = ((List.range s.length).map fun k => (bitAt s k).toNat * 2 ^ (s.length - 1 - k)).sum := by
  induction s with
  | nil => rfl
  | cons b s ih =>
    rw [uval, ih, List.length_cons, List.range_succ_eq_map, List.map_cons, List.sum_cons, List.map_map]
    congr 1
    · congr 1
      refine List.map_congr_left fun k _ => ?_
      simp only [Function.comp, bitAt, List.getD_cons_succ]
      congr 2; omega

theorem uval_bits8 {c : Nat} (h : c ≤ 255) : uval (bits8 c) = c := by
  have : ∀ c : Fin 256, uval (bits8 c) = c := by decide +kernel
  exact this ⟨c, by omega⟩

/-- The eight-bit rendering of a short string's value is the string padded with zeros on the left (R129). -/
theorem bits8_uval {s : Bits} (h : s.length ≤ 8) : bits8 (uval s) = List.replicate (8 - s.length) false ++ s := by
  have hlt := uval_lt s
  have hle : 2 ^ s.length ≤ 2 ^ 8 := Nat.pow_le_pow_right (by omega) h
  apply uval_injective (by simp; omega)
  rw [uval_bits8 (by omega), uval_append, uval_replicate_false]; omega

/-! ### window words -/

theorem packWord_getLsbD {s : Bits} {w k : Nat} (h : 32 * w + 32 ≤ s.length) (hk : k < 32) :
    (packWord s w).getLsbD (31 - k) = bitAt s (32 * w + k) := by
  have hl : ((s.drop (32 * w)).take 32).length = 32 := by simp; omega
  have := uval_testBit ((s.drop (32 * w)).take 32) (i := k) (by omega)
  rw [hl] at this
  rw [packWord, BitVec.getLsbD_ofNat, show 31 - k = 32 - 1 - k by omega, this, bitAt_take, bitAt_drop]
  simp [hk]; omega

/-- A word is what its 32 positions say, first position highest. -/
theorem word_ext_positions {v w : Word} (h : ∀ k < 32, v.getLsbD (31 - k) = w.getLsbD (31 - k)) : v = w := by
  apply BitVec.eq_of_getLsbD_eq
  intro i hi
  have := h (31 - i) (by omega)
  rwa [show 31 - (31 - i) = i by omega] at this

theorem packWord_putWord {s : Bits} {w : Nat} (h : 32 * w + 32 ≤ s.length) (v : Word) :
    packWord (putWord s w v) w = v := by
  apply word_ext_positions
  intro k hk
  rw [packWord_getLsbD (by rw [putWord_length h]; exact h) hk, bitAt_putWord_in h v hk]

/-! ### the source's functions -/

theorem chunk_encodeText (t : List Word) {j : Nat} (h : j < t.length) : chunk (encodeText t) j = bits8 t[j].toNat := by
  refine bits_ext (by rw [chunk_length]; simp; omega) fun k hk => ?_
  have hk8 : k < 8 := by rw [chunk_length] at hk; omega
  rw [chunk, bitAt_take, bitAt_drop, bitAt_encodeText _ hk8, bitAt_bits8_word _ hk8]
  simp [hk8, List.getD_eq_getElem?_getD, h]

/-- R129: the source's `decode(encode(t)) == t`. -/
theorem decodeBits_encodeText {t : List Word} (h : ∀ c ∈ t, c.toNat ≤ 255) : decodeBits (encodeText t) = t := by
  apply List.ext_getElem
  · simp [ceil8]; omega
  · intro j hj hj'
    simp only [decodeBits, List.getElem_map, List.getElem_range]
    rw [chunk_encodeText t hj', uval_bits8 (h _ (List.getElem_mem hj'))]
    simp

theorem decodeBits_getD (s : Bits) {j : Nat} (h : 8 * j < s.length) :
    (decodeBits s).getD j 0#32 = BitVec.ofNat 32 (uval (chunk s j)) := by
  have hj : j < ceil8 s.length := by unfold ceil8; omega
  simp [decodeBits, List.getD_eq_getElem?_getD, hj]

theorem uval_chunk_le (s : Bits) (j : Nat) : uval (chunk s j) ≤ 255 := by
  have h1 := uval_lt (chunk s j)
  have h2 : 2 ^ (chunk s j).length ≤ 2 ^ 8 := Nat.pow_le_pow_right (by omega) (by rw [chunk_length]; omega)
  omega

theorem uval_chunk_word (s : Bits) (j : Nat) : (BitVec.ofNat 32 (uval (chunk s j))).toNat = uval (chunk s j) := by
  have := uval_chunk_le s j
  rw [BitVec.toNat_ofNat]; omega

/-- Every character DECODE makes is at most 255 (R125, R130). -/
theorem decodeBits_le (s : Bits) : ∀ c ∈ decodeBits s, c.toNat ≤ 255 := by
  intro c hc
  simp only [decodeBits, List.mem_map] at hc
  obtain ⟨j, -, rfl⟩ := hc
  rw [uval_chunk_word]; exact uval_chunk_le s j

/-! ### the check on code points -/

theorem firstAbove255_eq_none {t : List Word} : firstAbove255 t = none ↔ ∀ c ∈ t, c.toNat ≤ 255 := by
  simp [firstAbove255, List.findIdx?_eq_none_iff]

/-- CODE_RANGE names the least offending index (R122). -/
theorem firstAbove255_eq_some {t : List Word} {j : Nat} :
    firstAbove255 t = some j ↔
      j < t.length ∧ 255 < (t.getD j 0#32).toNat ∧ ∀ i < j, (t.getD i 0#32).toNat ≤ 255 := by
  rw [firstAbove255, List.findIdx?_eq_some_iff_getElem]
  constructor
  · rintro ⟨hj, h1, h2⟩
    refine ⟨hj, by simpa [List.getD_eq_getElem?_getD, hj] using h1, fun i hi => ?_⟩
    have := h2 i hi
    simpa [List.getD_eq_getElem?_getD, show i < t.length by omega] using this
  · rintro ⟨hj, h1, h2⟩
    refine ⟨hj, by simpa [List.getD_eq_getElem?_getD, hj] using h1, fun i hi => ?_⟩
    have := h2 i hi
    simpa [List.getD_eq_getElem?_getD, show i < t.length by omega] using this

end Sys2Proof.Machine
end

