-- ==== Sys2Proof/Laws/Decode.lean ====
section
/-! SUPPORT. What the decoder does. -/

namespace Sys2Proof

/-- The encoder's word decodes back to its command. -/
theorem decode_encode (i : Instr) : decode (encode i) = .cmd i := by cases i <;> decide

/-- A word is its three fields put together (R81). -/
theorem word_eq_fields (w : Word) :
    w = ((fieldsOf w).rsv ++ (fieldsOf w).a ++ (fieldsOf w).op : BitVec (26 + 2 + 4)) := by
  apply BitVec.eq_of_getLsbD_eq
  intro i hi
  simp only [fieldsOf, BitVec.getLsbD_append, BitVec.getLsbD_extractLsb']
  by_cases h4 : i < 4
  · simp [h4]
  · by_cases h6 : i - 4 < 2
    · simp [h4, h6, show 4 + (i - 4) = i by omega]
    · simp [h4, h6, show 6 + (i - 4 - 2) = i by omega, show i - 4 - 2 < 26 by omega]

/-- A value of field A selects `b` exactly when it is the buffer's number. -/
theorem bufOfField_eq_some {a : BitVec 2} {b : Buf} :
    bufOfField a = some b ↔ a = (match b with | .key => 0#2 | .data => 1#2 | .res => 2#2) := by
  revert a b
  have : ∀ (b : Buf) (a : Fin 4), bufOfField (BitVec.ofFin (w := 2) a) = some b ↔
      BitVec.ofFin (w := 2) a = (match b with | .key => 0#2 | .data => 1#2 | .res => 2#2) := by
    intro b; cases b <;> decide
  intro a b
  exact this b a.toFin

theorem bufOfField_eq_none {a : BitVec 2} : bufOfField a = none ↔ a = 3#2 := by
  revert a
  have : ∀ a : Fin 4, bufOfField (BitVec.ofFin (w := 2) a) = none ↔ BitVec.ofFin (w := 2) a = 3#2 := by decide
  intro a
  exact this a.toFin

theorem decodeOperand_cases (w : Word) (make : Buf → Instr) :
    (∃ b, bufOfField (fieldsOf w).a = some b ∧ decodeOperand w make = .cmd (make b)) ∨
      ((fieldsOf w).a = 3#2 ∧ decodeOperand w make = .illegal .reservedBuffer w) := by
  unfold decodeOperand
  cases h : bufOfField (fieldsOf w).a with
  | some b => exact .inl ⟨b, rfl, rfl⟩
  | none => exact .inr ⟨bufOfField_eq_none.mp h, rfl⟩

/-- What a word can decode to: a command, with RSV = 0 and its fields those of the command, or the word itself as
illegal, its fields not being legal (R85, R88). -/
theorem decode_cases (w : Word) :
    (∃ i, decode w = .cmd i ∧ (fieldsOf w).rsv = 0#26 ∧ (fieldsOf w).a = i.aField ∧ (fieldsOf w).op = i.opField) ∨
      (∃ why, decode w = .illegal why w ∧ ¬ (fieldsOf w).WellFormed) := by
  unfold decode Fields.WellFormed
  have ops : ∀ make : Buf → Instr,
      (∀ b, (make b).aField = (match b with | .key => 0#2 | .data => 1#2 | .res => 2#2)) →
      (∀ b, (make b).opField = (fieldsOf w).op) → (fieldsOf w).op ≠ 0#4 → (fieldsOf w).rsv = 0#26 →
      (∃ i, decodeOperand w make = .cmd i ∧ (fieldsOf w).rsv = 0#26 ∧ (fieldsOf w).a = i.aField ∧
        (fieldsOf w).op = i.opField) ∨
      (∃ why, decodeOperand w make = .illegal why w ∧ ¬ ((fieldsOf w).rsv = 0#26 ∧
        (((fieldsOf w).op = 0#4 ∧ (fieldsOf w).a = 0#2) ∨
          (((fieldsOf w).op = 1#4 ∨ (fieldsOf w).op = 2#4 ∨ (fieldsOf w).op = 3#4) ∧ (fieldsOf w).a ≠ 3#2)))) := by
    intro make ha ho hne hr
    rcases decodeOperand_cases w make with ⟨b, hb, hd⟩ | ⟨h3, hd⟩
    · exact .inl ⟨make b, hd, hr, by rw [ha]; exact bufOfField_eq_some.mp hb, (ho b).symm⟩
    · refine .inr ⟨_, hd, ?_⟩
      rintro ⟨-, ⟨h, -⟩ | ⟨-, h⟩⟩
      · exact hne h
      · exact h h3
  split_ifs with hr h0 ha h1 h2 h3
  · exact .inr ⟨_, rfl, fun h => hr h.1⟩
  · exact .inl ⟨_, rfl, by simpa using hr, ha, h0⟩
  · refine .inr ⟨_, rfl, ?_⟩
    rintro ⟨-, ⟨-, h⟩ | ⟨h, -⟩⟩
    · exact ha h
    · rw [h0] at h; revert h; decide
  · exact ops _ (by intro b; cases b <;> rfl) (by intro b; rw [h1]; cases b <;> rfl) h0 (by simpa using hr)
  · exact ops _ (by intro b; cases b <;> rfl) (by intro b; rw [h2]; cases b <;> rfl) h0 (by simpa using hr)
  · exact ops _ (by intro b; cases b <;> rfl) (by intro b; rw [h3]; cases b <;> rfl) h0 (by simpa using hr)
  · refine .inr ⟨_, rfl, ?_⟩
    rintro ⟨-, ⟨h, -⟩ | ⟨h | h | h, -⟩⟩
    exacts [h0 h, h1 h, h2 h, h3 h]

/-- The commands by their operation and buffer. -/
theorem Instr.cases_by_buffer (i : Instr) :
    i = .nop ∨ (∃ a, i = Instr.encodeInto a) ∨ (∃ a, i = Instr.decodeFrom a) ∨ ∃ a, i = Instr.xorInto a := by
  cases i
  · exact .inl rfl
  · exact .inr (.inl ⟨.key, rfl⟩)
  · exact .inr (.inl ⟨.data, rfl⟩)
  · exact .inr (.inl ⟨.res, rfl⟩)
  · exact .inr (.inr (.inl ⟨.key, rfl⟩))
  · exact .inr (.inr (.inl ⟨.data, rfl⟩))
  · exact .inr (.inr (.inl ⟨.res, rfl⟩))
  · exact .inr (.inr (.inr ⟨.key, rfl⟩))
  · exact .inr (.inr (.inr ⟨.data, rfl⟩))
  · exact .inr (.inr (.inr ⟨.res, rfl⟩))

end Sys2Proof
end

