-- ==== Sys2Proof/Laws/State.lean ====
section
/-! SUPPORT. One lemma per field per update of the state, so that no proof unfolds a record update. -/

namespace Sys2Proof.Machine

/-! ### acceptance -/

@[simp] theorem accept_maxBits (s : State) (v : Word) : (s.accept v).maxBits = s.maxBits := rfl
@[simp] theorem accept_key (s : State) (v : Word) : (s.accept v).key = s.key := rfl
@[simp] theorem accept_data (s : State) (v : Word) : (s.accept v).data = s.data := rfl
@[simp] theorem accept_res (s : State) (v : Word) : (s.accept v).res = s.res := rfl
@[simp] theorem accept_klen (s : State) (v : Word) : (s.accept v).klen = s.klen := rfl
@[simp] theorem accept_dlen (s : State) (v : Word) : (s.accept v).dlen = s.dlen := rfl
@[simp] theorem accept_rlen (s : State) (v : Word) : (s.accept v).rlen = s.rlen := rfl
@[simp] theorem accept_text (s : State) (v : Word) : (s.accept v).text = s.text := rfl
@[simp] theorem accept_tlen (s : State) (v : Word) : (s.accept v).tlen = s.tlen := rfl
@[simp] theorem accept_done (s : State) (v : Word) : (s.accept v).done = false := rfl
@[simp] theorem accept_trail (s : State) (v : Word) : (s.accept v).trail = false := rfl
@[simp] theorem accept_hzd (s : State) (v : Word) : (s.accept v).hzd = s.hzd := rfl
@[simp] theorem accept_err (s : State) (v : Word) : (s.accept v).err = .none := rfl
@[simp] theorem accept_einfo (s : State) (v : Word) : (s.accept v).einfo = 0#32 := rfl
@[simp] theorem accept_pend (s : State) (v : Word) : (s.accept v).pend = true := rfl
@[simp] theorem accept_pcmd (s : State) (v : Word) : (s.accept v).pcmd = v := rfl
@[simp] theorem accept_host (s : State) (v : Word) : (s.accept v).host = s.host := rfl
@[simp] theorem accept_returned (s : State) (v : Word) : (s.accept v).returned = s.returned := rfl
@[simp] theorem accept_turns (s : State) (v : Word) : (s.accept v).turns = s.turns := rfl
@[simp] theorem accept_draws (s : State) (v : Word) : (s.accept v).draws = s.draws := rfl

/-! ### completion -/

@[simp] theorem finish_maxBits (s : State) (c : ErrCode) (i : Word) (b : Bool) : (s.finish c i b).maxBits = s.maxBits := rfl
@[simp] theorem finish_key (s : State) (c : ErrCode) (i : Word) (b : Bool) : (s.finish c i b).key = s.key := rfl
@[simp] theorem finish_data (s : State) (c : ErrCode) (i : Word) (b : Bool) : (s.finish c i b).data = s.data := rfl
@[simp] theorem finish_res (s : State) (c : ErrCode) (i : Word) (b : Bool) : (s.finish c i b).res = s.res := rfl
@[simp] theorem finish_klen (s : State) (c : ErrCode) (i : Word) (b : Bool) : (s.finish c i b).klen = s.klen := rfl
@[simp] theorem finish_dlen (s : State) (c : ErrCode) (i : Word) (b : Bool) : (s.finish c i b).dlen = s.dlen := rfl
@[simp] theorem finish_rlen (s : State) (c : ErrCode) (i : Word) (b : Bool) : (s.finish c i b).rlen = s.rlen := rfl
@[simp] theorem finish_text (s : State) (c : ErrCode) (i : Word) (b : Bool) : (s.finish c i b).text = s.text := rfl
@[simp] theorem finish_tlen (s : State) (c : ErrCode) (i : Word) (b : Bool) : (s.finish c i b).tlen = s.tlen := rfl
@[simp] theorem finish_done (s : State) (c : ErrCode) (i : Word) (b : Bool) : (s.finish c i b).done = true := rfl
@[simp] theorem finish_trail (s : State) (c : ErrCode) (i : Word) (b : Bool) : (s.finish c i b).trail = b := rfl
@[simp] theorem finish_hzd (s : State) (c : ErrCode) (i : Word) (b : Bool) : (s.finish c i b).hzd = s.hzd := rfl
@[simp] theorem finish_err (s : State) (c : ErrCode) (i : Word) (b : Bool) : (s.finish c i b).err = c := rfl
@[simp] theorem finish_einfo (s : State) (c : ErrCode) (i : Word) (b : Bool) : (s.finish c i b).einfo = i := rfl
@[simp] theorem finish_pend (s : State) (c : ErrCode) (i : Word) (b : Bool) : (s.finish c i b).pend = false := rfl
@[simp] theorem finish_pcmd (s : State) (c : ErrCode) (i : Word) (b : Bool) : (s.finish c i b).pcmd = s.pcmd := rfl
@[simp] theorem finish_host (s : State) (c : ErrCode) (i : Word) (b : Bool) : (s.finish c i b).host = s.host := rfl
@[simp] theorem finish_returned (s : State) (c : ErrCode) (i : Word) (b : Bool) : (s.finish c i b).returned = s.returned := rfl
@[simp] theorem finish_turns (s : State) (c : ErrCode) (i : Word) (b : Bool) : (s.finish c i b).turns = s.turns := rfl
@[simp] theorem finish_draws (s : State) (c : ErrCode) (i : Word) (b : Bool) : (s.finish c i b).draws = s.draws := rfl

/-! ### the record of a host read -/

@[simp] theorem logRead_maxBits (s : State) (v : Word) : (s.logRead v).maxBits = s.maxBits := rfl
@[simp] theorem logRead_key (s : State) (v : Word) : (s.logRead v).key = s.key := rfl
@[simp] theorem logRead_data (s : State) (v : Word) : (s.logRead v).data = s.data := rfl
@[simp] theorem logRead_res (s : State) (v : Word) : (s.logRead v).res = s.res := rfl
@[simp] theorem logRead_klen (s : State) (v : Word) : (s.logRead v).klen = s.klen := rfl
@[simp] theorem logRead_dlen (s : State) (v : Word) : (s.logRead v).dlen = s.dlen := rfl
@[simp] theorem logRead_rlen (s : State) (v : Word) : (s.logRead v).rlen = s.rlen := rfl
@[simp] theorem logRead_text (s : State) (v : Word) : (s.logRead v).text = s.text := rfl
@[simp] theorem logRead_tlen (s : State) (v : Word) : (s.logRead v).tlen = s.tlen := rfl
@[simp] theorem logRead_done (s : State) (v : Word) : (s.logRead v).done = s.done := rfl
@[simp] theorem logRead_trail (s : State) (v : Word) : (s.logRead v).trail = s.trail := rfl
@[simp] theorem logRead_hzd (s : State) (v : Word) : (s.logRead v).hzd = s.hzd := rfl
@[simp] theorem logRead_err (s : State) (v : Word) : (s.logRead v).err = s.err := rfl
@[simp] theorem logRead_einfo (s : State) (v : Word) : (s.logRead v).einfo = s.einfo := rfl
@[simp] theorem logRead_pend (s : State) (v : Word) : (s.logRead v).pend = s.pend := rfl
@[simp] theorem logRead_pcmd (s : State) (v : Word) : (s.logRead v).pcmd = s.pcmd := rfl
@[simp] theorem logRead_host (s : State) (v : Word) : (s.logRead v).host = s.host := rfl
@[simp] theorem logRead_returned (s : State) (v : Word) : (s.logRead v).returned = v :: s.returned := rfl
@[simp] theorem logRead_turns (s : State) (v : Word) : (s.logRead v).turns = s.turns := rfl
@[simp] theorem logRead_draws (s : State) (v : Word) : (s.logRead v).draws = s.draws := rfl

/-! ### reset -/

@[simp] theorem resetBlock_maxBits (s : State) : (resetBlock s).maxBits = s.maxBits := rfl
@[simp] theorem resetBlock_key (s : State) : (resetBlock s).key = resetBits s .key := rfl
@[simp] theorem resetBlock_data (s : State) : (resetBlock s).data = resetBits s .data := rfl
@[simp] theorem resetBlock_res (s : State) : (resetBlock s).res = resetBits s .res := rfl
@[simp] theorem resetBlock_klen (s : State) : (resetBlock s).klen = 0#32 := rfl
@[simp] theorem resetBlock_dlen (s : State) : (resetBlock s).dlen = 0#32 := rfl
@[simp] theorem resetBlock_rlen (s : State) : (resetBlock s).rlen = 0#32 := rfl
@[simp] theorem resetBlock_text (s : State) : (resetBlock s).text = (List.range s.maxChars).map fun j => Config.resetText s.draws j := rfl
@[simp] theorem resetBlock_tlen (s : State) : (resetBlock s).tlen = 0#32 := rfl
@[simp] theorem resetBlock_done (s : State) : (resetBlock s).done = false := rfl
@[simp] theorem resetBlock_trail (s : State) : (resetBlock s).trail = false := rfl
@[simp] theorem resetBlock_hzd (s : State) : (resetBlock s).hzd = false := rfl
@[simp] theorem resetBlock_err (s : State) : (resetBlock s).err = .none := rfl
@[simp] theorem resetBlock_einfo (s : State) : (resetBlock s).einfo = 0#32 := rfl
@[simp] theorem resetBlock_pend (s : State) : (resetBlock s).pend = false := rfl
@[simp] theorem resetBlock_pcmd (s : State) : (resetBlock s).pcmd = Config.resetPcmd s.draws := rfl
@[simp] theorem resetBlock_host (s : State) : (resetBlock s).host = s.host := rfl
@[simp] theorem resetBlock_returned (s : State) : (resetBlock s).returned = s.returned := rfl
@[simp] theorem resetBlock_turns (s : State) : (resetBlock s).turns = s.turns := rfl
@[simp] theorem resetBlock_draws (s : State) : (resetBlock s).draws = s.draws + 1 := rfl

/-! ### the bit buffers and their length registers, by the name of the buffer -/

@[simp] theorem setBuf_maxBits (s : State) (a : Buf) (b : Bits) : (s.setBuf a b).maxBits = s.maxBits := by cases a <;> rfl
@[simp] theorem setBuf_klen (s : State) (a : Buf) (b : Bits) : (s.setBuf a b).klen = s.klen := by cases a <;> rfl
@[simp] theorem setBuf_dlen (s : State) (a : Buf) (b : Bits) : (s.setBuf a b).dlen = s.dlen := by cases a <;> rfl
@[simp] theorem setBuf_rlen (s : State) (a : Buf) (b : Bits) : (s.setBuf a b).rlen = s.rlen := by cases a <;> rfl
@[simp] theorem setBuf_text (s : State) (a : Buf) (b : Bits) : (s.setBuf a b).text = s.text := by cases a <;> rfl
@[simp] theorem setBuf_tlen (s : State) (a : Buf) (b : Bits) : (s.setBuf a b).tlen = s.tlen := by cases a <;> rfl
@[simp] theorem setBuf_done (s : State) (a : Buf) (b : Bits) : (s.setBuf a b).done = s.done := by cases a <;> rfl
@[simp] theorem setBuf_trail (s : State) (a : Buf) (b : Bits) : (s.setBuf a b).trail = s.trail := by cases a <;> rfl
@[simp] theorem setBuf_hzd (s : State) (a : Buf) (b : Bits) : (s.setBuf a b).hzd = s.hzd := by cases a <;> rfl
@[simp] theorem setBuf_err (s : State) (a : Buf) (b : Bits) : (s.setBuf a b).err = s.err := by cases a <;> rfl
@[simp] theorem setBuf_einfo (s : State) (a : Buf) (b : Bits) : (s.setBuf a b).einfo = s.einfo := by cases a <;> rfl
@[simp] theorem setBuf_pend (s : State) (a : Buf) (b : Bits) : (s.setBuf a b).pend = s.pend := by cases a <;> rfl
@[simp] theorem setBuf_pcmd (s : State) (a : Buf) (b : Bits) : (s.setBuf a b).pcmd = s.pcmd := by cases a <;> rfl
@[simp] theorem setBuf_host (s : State) (a : Buf) (b : Bits) : (s.setBuf a b).host = s.host := by cases a <;> rfl
@[simp] theorem setBuf_returned (s : State) (a : Buf) (b : Bits) : (s.setBuf a b).returned = s.returned := by cases a <;> rfl
@[simp] theorem setBuf_turns (s : State) (a : Buf) (b : Bits) : (s.setBuf a b).turns = s.turns := by cases a <;> rfl
@[simp] theorem setBuf_draws (s : State) (a : Buf) (b : Bits) : (s.setBuf a b).draws = s.draws := by cases a <;> rfl

@[simp] theorem setLen_maxBits (s : State) (a : Buf) (n : Word) : (s.setLen a n).maxBits = s.maxBits := by cases a <;> rfl
@[simp] theorem setLen_key (s : State) (a : Buf) (n : Word) : (s.setLen a n).key = s.key := by cases a <;> rfl
@[simp] theorem setLen_data (s : State) (a : Buf) (n : Word) : (s.setLen a n).data = s.data := by cases a <;> rfl
@[simp] theorem setLen_res (s : State) (a : Buf) (n : Word) : (s.setLen a n).res = s.res := by cases a <;> rfl
@[simp] theorem setLen_text (s : State) (a : Buf) (n : Word) : (s.setLen a n).text = s.text := by cases a <;> rfl
@[simp] theorem setLen_tlen (s : State) (a : Buf) (n : Word) : (s.setLen a n).tlen = s.tlen := by cases a <;> rfl
@[simp] theorem setLen_done (s : State) (a : Buf) (n : Word) : (s.setLen a n).done = s.done := by cases a <;> rfl
@[simp] theorem setLen_trail (s : State) (a : Buf) (n : Word) : (s.setLen a n).trail = s.trail := by cases a <;> rfl
@[simp] theorem setLen_hzd (s : State) (a : Buf) (n : Word) : (s.setLen a n).hzd = s.hzd := by cases a <;> rfl
@[simp] theorem setLen_err (s : State) (a : Buf) (n : Word) : (s.setLen a n).err = s.err := by cases a <;> rfl
@[simp] theorem setLen_einfo (s : State) (a : Buf) (n : Word) : (s.setLen a n).einfo = s.einfo := by cases a <;> rfl
@[simp] theorem setLen_pend (s : State) (a : Buf) (n : Word) : (s.setLen a n).pend = s.pend := by cases a <;> rfl
@[simp] theorem setLen_pcmd (s : State) (a : Buf) (n : Word) : (s.setLen a n).pcmd = s.pcmd := by cases a <;> rfl
@[simp] theorem setLen_host (s : State) (a : Buf) (n : Word) : (s.setLen a n).host = s.host := by cases a <;> rfl
@[simp] theorem setLen_returned (s : State) (a : Buf) (n : Word) : (s.setLen a n).returned = s.returned := by cases a <;> rfl
@[simp] theorem setLen_turns (s : State) (a : Buf) (n : Word) : (s.setLen a n).turns = s.turns := by cases a <;> rfl
@[simp] theorem setLen_draws (s : State) (a : Buf) (n : Word) : (s.setLen a n).draws = s.draws := by cases a <;> rfl

@[simp] theorem setBuf_len (s : State) (a c : Buf) (b : Bits) : (s.setBuf a b).len c = s.len c := by
  cases a <;> cases c <;> rfl
@[simp] theorem setLen_buf (s : State) (a c : Buf) (n : Word) : (s.setLen a n).buf c = s.buf c := by
  cases a <;> cases c <;> rfl
@[simp] theorem setBuf_buf_same (s : State) (a : Buf) (b : Bits) : (s.setBuf a b).buf a = b := by cases a <;> rfl
@[simp] theorem setLen_len_same (s : State) (a : Buf) (n : Word) : (s.setLen a n).len a = n := by cases a <;> rfl

theorem setBuf_buf_other (s : State) {a c : Buf} (b : Bits) (h : c ≠ a) : (s.setBuf a b).buf c = s.buf c := by
  cases a <;> cases c <;> first | rfl | exact absurd rfl h

theorem setLen_len_other (s : State) {a c : Buf} (n : Word) (h : c ≠ a) : (s.setLen a n).len c = s.len c := by
  cases a <;> cases c <;> first | rfl | exact absurd rfl h

@[simp] theorem setBuf_self (s : State) (a : Buf) : s.setBuf a (s.buf a) = s := by cases a <;> rfl

/-! ### views through the buffer's name -/

@[simp] theorem finish_buf (s : State) (c : ErrCode) (i : Word) (b : Bool) (a : Buf) :
    (s.finish c i b).buf a = s.buf a := by cases a <;> rfl
@[simp] theorem finish_len (s : State) (c : ErrCode) (i : Word) (b : Bool) (a : Buf) :
    (s.finish c i b).len a = s.len a := by cases a <;> rfl
@[simp] theorem accept_buf (s : State) (v : Word) (a : Buf) : (s.accept v).buf a = s.buf a := by cases a <;> rfl
@[simp] theorem accept_len (s : State) (v : Word) (a : Buf) : (s.accept v).len a = s.len a := by cases a <;> rfl
@[simp] theorem logRead_buf (s : State) (v : Word) (a : Buf) : (s.logRead v).buf a = s.buf a := by cases a <;> rfl
@[simp] theorem logRead_len (s : State) (v : Word) (a : Buf) : (s.logRead v).len a = s.len a := by cases a <;> rfl

@[simp] theorem buf_key (s : State) : s.buf .key = s.key := rfl
@[simp] theorem buf_data (s : State) : s.buf .data = s.data := rfl
@[simp] theorem buf_res (s : State) : s.buf .res = s.res := rfl
@[simp] theorem len_key (s : State) : s.len .key = s.klen := rfl
@[simp] theorem len_data (s : State) : s.len .data = s.dlen := rfl
@[simp] theorem len_res (s : State) : s.len .res = s.rlen := rfl

end Sys2Proof.Machine
end

