-- ==== Sys2Proof/Laws/Ops.lean ====
section
/-! SUPPORT. What each shared operation can do, said once: the address map, host reads and writes, completions,
turns; and that each keeps the operand store's canonical form. -/

namespace Sys2Proof.Machine

/-! ### the address map -/

theorem wordOffset_le (addr : Addr) : wordOffset addr ≤ 0xFFFC := by
  have := addr.isLt
  unfold wordOffset; omega

theorem regAt_offset (r : Reg) : regAt (regOffset r) = some r := by cases r <;> decide

/-- A window word that the map reaches is below capacity (R53). -/
theorem placeAt_window {m o w : Nat} {a : Buf} (h : placeAt m o = .window a w) : w < m / 32 := by
  unfold placeAt windowPlace textPlace at h
  repeat' split at h
  all_goals simp_all

/-- A TEXT entry that the map reaches is below capacity (R53). -/
theorem placeAt_text {m o j : Nat} (h : placeAt m o = .text j) : j < m / 8 := by
  unfold placeAt windowPlace textPlace at h
  repeat' split at h
  all_goals simp_all

theorem placeAt_reg {m : Nat} (r : Reg) : placeAt m (regOffset r) = .reg r := by
  have h : regOffset r < 0x1000 := by cases r <;> decide
  rw [placeAt, if_pos h, regAt_offset]

/-- The window of BUF[a] lies where R53 puts it. -/
theorem placeAt_window_base {m w : Nat} (a : Buf) (hm : m ≤ 8192) (hw : w < m / 32) :
    placeAt m (windowBase a + 4 * w) = .window a w := by
  have h : w < 256 := by omega
  have hwp : ∀ (o : Nat), o = w → windowPlace m a o = .window a w := by
    rintro o rfl; rw [windowPlace, if_pos hw]
  have hb : windowBase a = 0x1000 * (bufNumber a + 1) := rfl
  generalize windowBase a = base at *
  unfold placeAt
  cases a <;> simp only [bufNumber] at hb
  · rw [if_neg (by omega), if_pos (by omega)]; exact hwp _ (by omega)
  · rw [if_neg (by omega), if_neg (by omega), if_pos (by omega)]; exact hwp _ (by omega)
  · rw [if_neg (by omega), if_neg (by omega), if_neg (by omega), if_pos (by omega)]; exact hwp _ (by omega)

theorem placeAt_text_base {m j : Nat} (hm : m ≤ 8192) (hj : j < m / 8) : placeAt m (textBase + 4 * j) = .text j := by
  have h : j < 1024 := by omega
  have hb : textBase = 0x4000 := rfl
  generalize textBase = base at *
  unfold placeAt
  rw [if_neg (by omega), if_neg (by omega), if_neg (by omega), if_neg (by omega), if_pos (by omega), textPlace,
    if_pos (by omega)]
  congr 1; omega

/-- An access whose word is a register's reaches it, bits 1:0 whatever they are (R52, R59). -/
theorem place_reg (s : State) (r : Reg) {addr : Addr} (h : addr.toNat / 4 * 4 = regOffset r) :
    s.place addr = .reg r := by
  unfold State.place wordOffset; rw [h]; exact placeAt_reg r

/-- An access in the window of BUF[a] below capacity reaches its word (R53). -/
theorem place_window {s : State} (h : s.maxBits ≤ 8192) {a : Buf} {w : Nat} (hw : w < s.maxWords) {addr : Addr}
    (ha : addr.toNat / 4 * 4 = windowBase a + 4 * w) : s.place addr = .window a w := by
  unfold State.place wordOffset; rw [ha]; exact placeAt_window_base a h hw

/-- An access in the TEXT window below capacity reaches its entry (R53). -/
theorem place_text {s : State} (h : s.maxBits ≤ 8192) {j : Nat} (hj : j < s.maxChars) {addr : Addr}
    (ha : addr.toNat / 4 * 4 = textBase + 4 * j) : s.place addr = .text j := by
  unfold State.place wordOffset; rw [ha]; exact placeAt_text_base h hj

/-- What the map leaves reserved is reserved (R52, R53). -/
theorem placeAt_reserved {m o : Nat} (h4 : o % 4 = 0) (h : ReservedOffset m o) : placeAt m o = .reserved := by
  unfold ReservedOffset at h
  unfold placeAt
  split_ifs
  · have : regAt o = none := by
      unfold regAt
      split_ifs <;> first | rfl | omega
    rw [this]
  · rw [windowPlace, if_neg (by omega)]
  · rw [windowPlace, if_neg (by omega)]
  · rw [windowPlace, if_neg (by omega)]
  · rw [textPlace, if_neg (by omega)]
  · rfl

/-! ### host reads -/

theorem hostRead_window {s : State} {addr : Addr} {a : Buf} {w : Nat} (h : s.place addr = .window a w) :
    hostRead addr s = readOperand (packWord (s.buf a) w) s := by simp [hostRead, h]

theorem hostRead_text {s : State} {addr : Addr} {j : Nat} (h : s.place addr = .text j) :
    hostRead addr s = readOperand (s.text.getD j 0#32) s := by simp [hostRead, h]

theorem hostRead_reserved {s : State} {addr : Addr} (h : s.place addr = .reserved) :
    hostRead addr s = (0#32, s) := by simp [hostRead, h, readStored]

theorem readOperand_idle {s : State} (v : Word) (h : s.pend = false) : readOperand v s = (v, s) := by
  simp [readOperand, h]

theorem readOperand_busy {s : State} (v : Word) (h : s.pend = true) :
    readOperand v s = (Config.busyRead s.draws, { s with draws := s.draws + 1 }) := by simp [readOperand, h]

/-- A read leaves the state as it was, or counts one draw (R57). -/
theorem hostRead_state (addr : Addr) (s : State) :
    (hostRead addr s).2 = s ∨ (s.pend = true ∧ (hostRead addr s).2 = { s with draws := s.draws + 1 }) := by
  have op : ∀ v : Word, (readOperand v s).2 = s ∨
      (s.pend = true ∧ (readOperand v s).2 = { s with draws := s.draws + 1 }) := by
    intro v
    cases h : s.pend with
    | false => exact .inl (by rw [readOperand_idle v h])
    | true => exact .inr ⟨rfl, by rw [readOperand_busy v h, ← h]⟩
  unfold hostRead readStored
  split
  all_goals first | exact op _ | exact .inl rfl

/-- What a read by the host can do to the state: the word is recorded, and a draw may be counted. -/
theorem readAndLog_cases (addr : Addr) (s : State) :
    readAndLog addr s = s.logRead (hostRead addr s).1 ∨
      (s.pend = true ∧
        readAndLog addr s = { s.logRead (hostRead addr s).1 with draws := s.draws + 1 }) := by
  unfold readAndLog
  rcases hostRead_state addr s with h | ⟨hp, h⟩
  · exact .inl (by rw [h])
  · exact .inr ⟨hp, by rw [h]; rfl⟩

/-- STATUS reads without effect at any time (R29). -/
theorem hostRead_status (s : State) : hostRead (targetAddr (.reg .status)) s = (s.status, s) := by
  have h : s.place (targetAddr (.reg .status)) = .reg .status := placeAt_reg (m := s.maxBits) .status
  simp [hostRead, h, readStored]

/-- Bit 0 of STATUS is BUSY (R29). -/
theorem status_busy (s : State) : s.status.getLsbD 0 = s.pend := by
  have all : ∀ (e : ErrCode) (h t d p : Bool), (0#20 ++ errNumber e ++ 0#4 ++ BitVec.ofBool h ++ BitVec.ofBool t ++
      BitVec.ofBool d ++ BitVec.ofBool p).getLsbD 0 = p := by
    intro e h t d p; cases e <;> cases h <;> cases t <;> cases d <;> cases p <;> rfl
  exact all _ _ _ _ _

/-! ### host writes -/

theorem hostWrite_busy {s : State} (addr : Addr) (v : Word) (h : s.pend = true) :
    hostWrite addr v s = { s with hzd := true } := by simp [hostWrite, h]

theorem hostWrite_idle {s : State} (addr : Addr) (v : Word) (h : s.pend = false) :
    hostWrite addr v s = writeIdle addr v s := by simp [hostWrite, h]

/-- What a write while BUSY = 0 can do (R58): accept a command at the word of CMD, set a length register, set a
window word below capacity, or nothing. -/
theorem writeIdle_cases (addr : Addr) (v : Word) (s : State) :
    (s.place addr = .reg .cmd ∧ writeIdle addr v s = s.accept v) ∨
      (s.place addr = .reg .klen ∧ writeIdle addr v s = { s with klen := v }) ∨
      (s.place addr = .reg .dlen ∧ writeIdle addr v s = { s with dlen := v }) ∨
      (s.place addr = .reg .rlen ∧ writeIdle addr v s = { s with rlen := v }) ∨
      (s.place addr = .reg .tlen ∧ writeIdle addr v s = { s with tlen := v }) ∨
      (∃ a w, s.place addr = .window a w ∧ w < s.maxWords ∧
        writeIdle addr v s = s.setBuf a (putWord (s.buf a) w v)) ∨
      (∃ j, s.place addr = .text j ∧ j < s.maxChars ∧ writeIdle addr v s = { s with text := s.text.set j v }) ∨
      writeIdle addr v s = s := by
  cases hp : s.place addr with
  | reg r => cases r <;> simp [writeIdle, hp]
  | window a w =>
    have hw : w < s.maxWords := placeAt_window (by simpa [State.place] using hp)
    simp [writeIdle, hp, hw]
  | text j =>
    have hj : j < s.maxChars := placeAt_text (by simpa [State.place] using hp)
    simp [writeIdle, hp, hj]
  | reserved => simp [writeIdle, hp]

/-! ### completions -/

/-- A completion records its outcome, whatever it is (R104). -/
theorem complete_finish (o : CmdOutcome) (s : State) :
    complete o s = (match o with
      | .ok w trail => (w.apply s).finish .none 0#32 trail
      | .error code info => s.finish code info false) := by cases o <;> rfl

@[simp] theorem apply_maxBits (w : Writes) (s : State) : (w.apply s).maxBits = s.maxBits := by
  cases w <;> simp [Writes.apply]
@[simp] theorem apply_hzd (w : Writes) (s : State) : (w.apply s).hzd = s.hzd := by
  cases w <;> simp [Writes.apply]
@[simp] theorem apply_pcmd (w : Writes) (s : State) : (w.apply s).pcmd = s.pcmd := by
  cases w <;> simp [Writes.apply]
@[simp] theorem apply_host (w : Writes) (s : State) : (w.apply s).host = s.host := by
  cases w <;> simp [Writes.apply]
@[simp] theorem apply_returned (w : Writes) (s : State) : (w.apply s).returned = s.returned := by
  cases w <;> simp [Writes.apply]
@[simp] theorem apply_turns (w : Writes) (s : State) : (w.apply s).turns = s.turns := by
  cases w <;> simp [Writes.apply]
@[simp] theorem apply_draws (w : Writes) (s : State) : (w.apply s).draws = s.draws := by
  cases w <;> simp [Writes.apply]

/-- No completion writes MAXBITS, HZD, PCMD or anything outside the engine. -/
theorem complete_frame (o : CmdOutcome) (s : State) : CompletionFrame s (complete o s) := by
  cases o <;> simp [complete, raiseError, CompletionFrame, SameAgents]

/-- Every completion ends with BUSY 0 and DONE 1 (R104). -/
theorem complete_done (o : CmdOutcome) (s : State) : (complete o s).pend = false ∧ (complete o s).done = true := by
  cases o <;> simp [complete, raiseError]

/-- An error writes no operand (R104). -/
theorem raiseError_sameOperands (c : ErrCode) (i : Word) (s : State) : SameOperands s (raiseError c i s) := by
  simp [raiseError, SameOperands, SameBuf, SameText]

/-- An error records its code and detail, TRAIL 0 (R104). -/
theorem raiseError_recorded (c : ErrCode) (i : Word) (s : State) : (raiseError c i s).Recorded c i false :=
  ⟨rfl, rfl, rfl, rfl, rfl⟩

/-- A success records no error and its TRAIL (R104). -/
theorem complete_ok_recorded (w : Writes) (b : Bool) (s : State) :
    (complete (.ok w b) s).Recorded .none 0#32 b := ⟨rfl, rfl, rfl, rfl, rfl⟩

/-- A result bit string writes neither TEXT nor TLEN. -/
theorem complete_buffer_sameText (a : Buf) (r : Bits) (b : Bool) (s : State) :
    SameText s (complete (.ok (.buffer a r) b) s) := by cases a <;> exact ⟨rfl, rfl⟩

/-- A result bit string writes no buffer but its own. -/
theorem complete_buffer_sameBuf {a c : Buf} (h : c ≠ a) (r : Bits) (b : Bool) (s : State) :
    SameBuf c s (complete (.ok (.buffer a r) b) s) := by
  cases a <;> cases c <;> first | exact ⟨rfl, rfl⟩ | exact absurd rfl h

/-- A result text writes no buffer. -/
theorem complete_text_sameBuf (c : Buf) (t : List Word) (b : Bool) (s : State) :
    SameBuf c s (complete (.ok (.text t) b) s) := by cases c <;> exact ⟨rfl, rfl⟩

@[simp] theorem complete_buffer_buf (a : Buf) (r : Bits) (b : Bool) (s : State) :
    (complete (.ok (.buffer a r) b) s).buf a = fill s.maxBits false r := by cases a <;> rfl

@[simp] theorem complete_buffer_len (a : Buf) (r : Bits) (b : Bool) (s : State) :
    (complete (.ok (.buffer a r) b) s).len a = BitVec.ofNat 32 r.length := by cases a <;> rfl

@[simp] theorem complete_text_text (t : List Word) (b : Bool) (s : State) :
    (complete (.ok (.text t) b) s).text = fill s.maxChars 0#32 t := rfl

@[simp] theorem complete_text_tlen (t : List Word) (b : Bool) (s : State) :
    (complete (.ok (.text t) b) s).tlen = BitVec.ofNat 32 t.length := rfl

/-- The outcome of executing a word (R105). -/
def outcomeOf (w : Word) (s : State) : CmdOutcome :=
  match decode w with
  | .cmd .nop => .ok .nothing false
  | .cmd .encodeKey => encodeOutcome .key s
  | .cmd .encodeData => encodeOutcome .data s
  | .cmd .encodeRes => encodeOutcome .res s
  | .cmd .decodeKey => decodeOutcome .key s
  | .cmd .decodeData => decodeOutcome .data s
  | .cmd .decodeRes => decodeOutcome .res s
  | .cmd .xorKey => xorOutcome .key s
  | .cmd .xorData => xorOutcome .data s
  | .cmd .xorRes => xorOutcome .res s
  | .illegal _ v => .error .illegalCmd v

@[simp] theorem exec_nop (s : State) : exec .nop s = .next (complete (.ok .nothing false) s) := rfl
@[simp] theorem exec_encodeInto (a : Buf) (s : State) :
    exec (Instr.encodeInto a) s = .next (complete (encodeOutcome a s) s) := by cases a <;> rfl
@[simp] theorem exec_decodeFrom (a : Buf) (s : State) :
    exec (Instr.decodeFrom a) s = .next (complete (decodeOutcome a s) s) := by cases a <;> rfl
@[simp] theorem exec_xorInto (a : Buf) (s : State) :
    exec (Instr.xorInto a) s = .next (complete (xorOutcome a s) s) := by cases a <;> rfl

/-- Executing any word is the completion of its outcome: no word faults or is refused (R105, R108). -/
theorem execWord_eq (w : Word) (s : State) : execWord w s = .next (complete (outcomeOf w s) s) := by
  unfold execWord outcomeOf
  cases decode w with
  | cmd i => cases i <;> rfl
  | illegal why v => rfl

/-- The outcome of a word by operation and buffer. -/
theorem outcomeOf_cases (w : Word) (s : State) :
    (decode w = .cmd .nop ∧ outcomeOf w s = .ok .nothing false) ∨
      (∃ a, decode w = .cmd (Instr.encodeInto a) ∧ outcomeOf w s = encodeOutcome a s) ∨
      (∃ a, decode w = .cmd (Instr.decodeFrom a) ∧ outcomeOf w s = decodeOutcome a s) ∨
      (∃ a, decode w = .cmd (Instr.xorInto a) ∧ outcomeOf w s = xorOutcome a s) ∨
      (∃ why, decode w = .illegal why w ∧ outcomeOf w s = .error .illegalCmd w) := by
  rcases decode_cases w with ⟨i, hi, -⟩ | ⟨why, hw, -⟩
  · rcases Instr.cases_by_buffer i with rfl | ⟨a, rfl⟩ | ⟨a, rfl⟩ | ⟨a, rfl⟩
    · exact .inl ⟨hi, by simp [outcomeOf, hi]⟩
    · exact .inr (.inl ⟨a, hi, by cases a <;> simp [outcomeOf, hi, Instr.encodeInto]⟩)
    · exact .inr (.inr (.inl ⟨a, hi, by cases a <;> simp [outcomeOf, hi, Instr.decodeFrom]⟩))
    · exact .inr (.inr (.inr (.inl ⟨a, hi, by cases a <;> simp [outcomeOf, hi, Instr.xorInto]⟩)))
  · exact .inr (.inr (.inr (.inr ⟨why, hw, by simp [outcomeOf, hw]⟩)))

/-- ENCODE's outcomes (R105, R121 to R123). -/
theorem encodeOutcome_cases (a : Buf) (s : State) :
    (s.maxChars < s.tlen.toNat ∧ encodeOutcome a s = .error .lenRange 3#32) ∨
      (∃ j, s.tlen.toNat ≤ s.maxChars ∧ firstAbove255 s.textVal = some j ∧
        encodeOutcome a s = .error .codeRange (BitVec.ofNat 32 j)) ∨
      (s.EncodeReady ∧ encodeOutcome a s = .ok (.buffer a (encodeText s.textVal)) false) := by
  unfold encodeOutcome
  by_cases h : s.maxChars < s.tlen.toNat
  · exact .inl ⟨h, by simp [h, textId]⟩
  · simp only [h, if_false]
    cases hf : firstAbove255 s.textVal with
    | some j => exact .inr (.inl ⟨j, by omega, rfl, rfl⟩)
    | none => exact .inr (.inr ⟨⟨by omega, firstAbove255_eq_none.mp hf⟩, rfl⟩)

theorem encodeOutcome_ready (a : Buf) {s : State} (h : s.EncodeReady) :
    encodeOutcome a s = .ok (.buffer a (encodeText s.textVal)) false := by
  simp [encodeOutcome, Nat.not_lt.mpr h.1, firstAbove255_eq_none.mpr h.2]

/-- DECODE's outcomes (R105, R125, R128). -/
theorem decodeOutcome_ready (a : Buf) {s : State} (h : s.DecodeReady a) :
    decodeOutcome a s = .ok (.text (decodeBits (s.val a))) (decide ((s.len a).toNat % 8 ≠ 0)) := by
  simp [decodeOutcome, Nat.not_lt.mpr h]

theorem decodeOutcome_tooLong (a : Buf) {s : State} (h : s.maxBits < (s.len a).toNat) :
    decodeOutcome a s = .error .lenRange (lenId a) := by simp [decodeOutcome, h]

/-- XOR's outcomes (R105, R141 to R143). -/
theorem xorOutcome_ready (a : Buf) {s : State} (h : s.XorReady) :
    xorOutcome a s = .ok (.buffer a (transform (s.val .key) (s.val .data))) false := by
  have h2 : s.dlen.toNat ≤ s.maxBits := h.2 ▸ h.1
  simp [xorOutcome, Nat.not_lt.mpr h2, h.2]

theorem xorOutcome_cases (a : Buf) (s : State) :
    (s.maxBits < s.klen.toNat ∧ xorOutcome a s = .error .lenRange 0#32) ∨
      (s.klen.toNat ≤ s.maxBits ∧ s.maxBits < s.dlen.toNat ∧ xorOutcome a s = .error .lenRange 1#32) ∨
      (s.klen.toNat ≤ s.maxBits ∧ s.dlen.toNat ≤ s.maxBits ∧ s.klen ≠ s.dlen ∧
        xorOutcome a s = .error .lengthMismatch 0#32) ∨
      (s.XorReady ∧ xorOutcome a s = .ok (.buffer a (transform (s.val .key) (s.val .data))) false) := by
  by_cases h1 : s.maxBits < s.klen.toNat
  · exact .inl ⟨h1, by simp [xorOutcome, h1, lenId, bufNumber]⟩
  by_cases h2 : s.maxBits < s.dlen.toNat
  · exact .inr (.inl ⟨by omega, h2, by simp [xorOutcome, h1, h2, lenId, bufNumber]⟩)
  by_cases h3 : s.klen = s.dlen
  · exact .inr (.inr (.inr ⟨⟨by omega, h3⟩, xorOutcome_ready a ⟨by omega, h3⟩⟩))
  · exact .inr (.inr (.inl ⟨by omega, by omega, h3, by simp [xorOutcome, h1, h2, h3]⟩))

/-! ### the operands and the result written -/

theorem buf_length {s : State} (h : Memory.wf s) (a : Buf) : (s.buf a).length = s.maxBits := by
  cases a
  exacts [h.1, h.2.1, h.2.2.1]

theorem val_length {s : State} (h : Memory.wf s) {a : Buf} (ha : (s.len a).toNat ≤ s.maxBits) :
    (s.val a).length = (s.len a).toNat := by simp [State.val, buf_length h a, ha]

theorem textVal_length {s : State} (h : Memory.wf s) (ht : s.tlen.toNat ≤ s.maxChars) :
    s.textVal.length = s.tlen.toNat := by
  have := h.2.2.2
  simp only [State.maxChars] at ht
  simp [State.textVal, this, ht]

theorem textVal_getD (s : State) {j : Nat} (h : j < s.tlen.toNat) :
    s.textVal.getD j 0#32 = s.text.getD j 0#32 := by
  simp [State.textVal, List.getD_eq_getElem?_getD, h]

/-- The operand string of the buffer a command wrote is the result (R24, R25). -/
theorem complete_buffer_val (s : State) (a : Buf) {r : Bits} (b : Bool) (hr : r.length ≤ s.maxBits)
    (hw : r.length < 2 ^ 32) : (complete (.ok (.buffer a r) b) s).val a = r := by
  have e : r.length % 2 ^ 32 = r.length := Nat.mod_eq_of_lt hw
  simp only [State.val, complete_buffer_buf, complete_buffer_len, BitVec.toNat_ofNat, e, take_fill false hr]

/-- The text a command wrote is the result (R25, R26). -/
theorem complete_text_textVal (s : State) {t : List Word} (b : Bool) (ht : t.length ≤ s.maxChars)
    (hw : t.length < 2 ^ 32) : (complete (.ok (.text t) b) s).textVal = t := by
  have e : t.length % 2 ^ 32 = t.length := Nat.mod_eq_of_lt hw
  simp only [State.textVal, complete_text_text, complete_text_tlen, BitVec.toNat_ofNat, e, take_fill (0#32) ht]

/-! ### the canonical form of the operand store is kept -/

theorem setBuf_wf {s : State} (h : Memory.wf s) (a : Buf) {b : Bits} (hb : b.length = s.maxBits) :
    Memory.wf (s.setBuf a b) := by
  obtain ⟨h1, h2, h3, h4⟩ := h
  cases a <;> exact ⟨by first | exact hb | exact h1, by first | exact hb | exact h2,
    by first | exact hb | exact h3, h4⟩

theorem setLen_wf {s : State} (h : Memory.wf s) (a : Buf) (n : Word) : Memory.wf (s.setLen a n) := by
  cases a <;> exact h

theorem apply_wf {s : State} (h : Memory.wf s) (w : Writes) : Memory.wf (w.apply s) := by
  cases w with
  | nothing => exact h
  | buffer a r => exact setLen_wf (setBuf_wf h a (by simp)) a _
  | text t => exact ⟨h.1, h.2.1, h.2.2.1, by simp [Writes.apply, State.maxChars]⟩

theorem complete_wf {s : State} (h : Memory.wf s) (o : CmdOutcome) : Memory.wf (complete o s) := by
  cases o with
  | ok w b => exact apply_wf h w
  | error c i => exact h

theorem hostRead_wf {s : State} (h : Memory.wf s) (addr : Addr) : Memory.wf (hostRead addr s).2 := by
  rcases hostRead_state addr s with e | ⟨-, e⟩ <;> rw [e] <;> exact h

theorem readAndLog_wf {s : State} (h : Memory.wf s) (addr : Addr) : Memory.wf (readAndLog addr s) :=
  hostRead_wf h addr

theorem hostWrite_wf {s : State} (h : Memory.wf s) (addr : Addr) (v : Word) : Memory.wf (hostWrite addr v s) := by
  cases hp : s.pend with
  | true => rw [hostWrite_busy addr v hp]; exact h
  | false =>
    rw [hostWrite_idle addr v hp]
    rcases writeIdle_cases addr v s with ⟨-, e⟩ | ⟨-, e⟩ | ⟨-, e⟩ | ⟨-, e⟩ | ⟨-, e⟩ | ⟨a, w, -, hw, e⟩ |
      ⟨j, -, -, e⟩ | e
    all_goals rw [e]
    · exact h
    · exact h
    · exact h
    · exact h
    · exact h
    · refine setBuf_wf h a ?_
      rw [putWord_length (by rw [buf_length h a]; simp only [State.maxWords] at hw; omega), buf_length h a]
    · exact ⟨h.1, h.2.1, h.2.2.1, by simpa using h.2.2.2⟩
    · exact h

theorem resetBlock_wf (s : State) : Memory.wf (resetBlock s) := by
  simp [Memory.wf, resetBits, State.maxChars]

/-! ### turns -/

theorem nextTurn_cons (s : State) (t : Turn) (ts : List Turn) (h : s.turns = t :: ts) :
    nextTurn s = (t, { s with turns := ts }) := by simp [nextTurn, h]

theorem nextTurn_nil (s : State) (h : s.turns = []) : nextTurn s = (if s.pend then .engine else .host, s) := by
  simp [nextTurn, h]

/-- Taking a turn changes nothing but the list of turns. -/
theorem nextTurn_state (s : State) : ∃ ts, (nextTurn s).2 = { s with turns := ts } := by
  unfold nextTurn
  cases h : s.turns with
  | nil => exact ⟨[], by simp [← h]⟩
  | cons t ts => exact ⟨ts, rfl⟩

theorem nextTurn_engine {s : State} {ts : List Turn} (h : s.EngineNext ts) :
    nextTurn s = (.engine, { s with turns := ts }) := by
  rcases h with h | ⟨h, rfl, hp⟩
  · exact nextTurn_cons s _ _ h
  · rw [nextTurn_nil s h, if_pos hp, ← h]

theorem nextTurn_host {s : State} {ts : List Turn} (h : s.HostNext ts) :
    nextTurn s = (.host, { s with turns := ts }) := by
  rcases h with h | ⟨h, rfl, hp⟩
  · exact nextTurn_cons s _ _ h
  · rw [nextTurn_nil s h, if_neg (by simp [hp]), ← h]

/-- What the host's step can do: nothing, a write, a read, or a POLL that goes on or stays (R91, R92). -/
theorem hostTurn_cases (s : State) :
    hostTurn s = s ∨
      (∃ target v rest, s.host = .wr target v :: rest ∧
        hostTurn s = hostWrite (targetAddr target) v { s with host := rest }) ∨
      (∃ target rest, s.host = .rd target :: rest ∧
        hostTurn s = readAndLog (targetAddr target) { s with host := rest }) ∨
      (∃ rest, s.host = .poll :: rest ∧
        hostTurn s = { s with returned := s.status :: s.returned, host := if s.pend then .poll :: rest else rest }) := by
  unfold hostTurn
  cases h : s.host with
  | nil => exact .inl rfl
  | cons st rest =>
    cases st with
    | wr t v => exact .inr (.inl ⟨t, v, rest, rfl, rfl⟩)
    | rd t => exact .inr (.inr (.inl ⟨t, rest, rfl, rfl⟩))
    | poll =>
      refine .inr (.inr (.inr ⟨rest, rfl, ?_⟩))
      have hs : ({ s with host := rest } : State).status = s.status := rfl
      simp only [hostStmt, readAndLog, hostRead_status, status_busy, hs]
      by_cases hp : s.pend = true
      · rw [if_pos hp, if_pos hp, ← h]; rfl
      · rw [if_neg hp, if_neg hp]; rfl

/-- What one step can do (R9): the host's step, a completion of the pending word, an idle engine, or reset; always
a next state. -/
theorem step_cases (s : State) :
    ((nextTurn s).1 = .host ∧ step s = .next (hostTurn (nextTurn s).2)) ∨
      ((nextTurn s).1 = .engine ∧ s.pend = true ∧
        step s = .next (complete (outcomeOf s.pcmd (nextTurn s).2) (nextTurn s).2)) ∨
      ((nextTurn s).1 = .engine ∧ s.pend = false ∧ step s = .next (nextTurn s).2) ∨
      ((nextTurn s).1 = .reset ∧ step s = .next (resetBlock (nextTurn s).2)) := by
  obtain ⟨ts, hts⟩ := nextTurn_state s
  unfold step
  cases ht : (nextTurn s).1 with
  | host => exact .inl ⟨rfl, rfl⟩
  | reset => exact .inr (.inr (.inr ⟨rfl, rfl⟩))
  | engine =>
    have hpend : (nextTurn s).2.pend = s.pend := by rw [hts]
    have hpcmd : (nextTurn s).2.pcmd = s.pcmd := by rw [hts]
    cases hp : s.pend with
    | true =>
      refine .inr (.inl ⟨rfl, rfl, ?_⟩)
      simp only [runTurn, engineTurn, hpend, hp, hpcmd, if_true]
      exact execWord_eq _ _
    | false => exact .inr (.inr (.inl ⟨rfl, rfl, by simp [runTurn, engineTurn, hpend, hp]⟩))

theorem run_succ (M : Host.Core) (k : Nat) {s t : M.State} (h : M.step s = .next t) :
    M.run (k + 1) s = M.run k t := by simp only [Host.Core.run, h]

/-- A run of one step more begins with that step. -/
theorem core_run_succ (k : Nat) {s t : State} (h : step s = .next t) :
    Sys2Proof.core.run (k + 1) s = Sys2Proof.core.run k t := run_succ Sys2Proof.core k h

theorem core_run_zero (s : State) : Sys2Proof.core.run 0 s = .next s := rfl

end Sys2Proof.Machine
end

