-- ==== Sys2Proof/Laws/PerInstr.lean ====
section
/-! SUPPORT. What holds of every command as syntax, one lemma per constructor. -/

namespace Sys2Proof.Laws.Encoding

/-- A command's word is the one R86 lists for it, its fields are legal (R85), and it decodes back to the command. -/
def Statement (i : Instr) : Prop :=
  (encode i, i) ∈ Machine.legalTable ∧ (fieldsOf (encode i)).WellFormed ∧ decode (encode i) = .cmd i

theorem nop : Statement .nop := by unfold Statement; decide
theorem encodeKey : Statement .encodeKey := by unfold Statement; decide
theorem encodeData : Statement .encodeData := by unfold Statement; decide
theorem encodeRes : Statement .encodeRes := by unfold Statement; decide
theorem decodeKey : Statement .decodeKey := by unfold Statement; decide
theorem decodeData : Statement .decodeData := by unfold Statement; decide
theorem decodeRes : Statement .decodeRes := by unfold Statement; decide
theorem xorKey : Statement .xorKey := by unfold Statement; decide
theorem xorData : Statement .xorData := by unfold Statement; decide
theorem xorRes : Statement .xorRes := by unfold Statement; decide

end Sys2Proof.Laws.Encoding
end

