-- ==== Sys2Proof/Tests/Slice0.lean ====
section
/-! SUPPORT. Tests: decoding of words written out from the spec's encoding, the checks on syntax, the spec's own test
vectors (95_test_vectors.md), and for every statement with hypotheses a state that meets them. -/

namespace Sys2Proof.Tests

open Sys2Proof Sys2Proof.Machine

/-! ### decoding: RSV = 0, then A (2 bits), then OP (4 bits), by R81 and R86 -/

theorem test_decode_nop : decode 0b00000000000000000000000000_00_0000#32 = .cmd .nop := by decide
theorem test_decode_encodeKey : decode 0b00000000000000000000000000_00_0001#32 = .cmd .encodeKey := by decide
theorem test_decode_encodeData : decode 0b00000000000000000000000000_01_0001#32 = .cmd .encodeData := by decide
theorem test_decode_encodeRes : decode 0b00000000000000000000000000_10_0001#32 = .cmd .encodeRes := by decide
theorem test_decode_decodeKey : decode 0b00000000000000000000000000_00_0010#32 = .cmd .decodeKey := by decide
theorem test_decode_decodeData : decode 0b00000000000000000000000000_01_0010#32 = .cmd .decodeData := by decide
theorem test_decode_decodeRes : decode 0b00000000000000000000000000_10_0010#32 = .cmd .decodeRes := by decide
theorem test_decode_xorKey : decode 0b00000000000000000000000000_00_0011#32 = .cmd .xorKey := by decide
theorem test_decode_xorData : decode 0b00000000000000000000000000_01_0011#32 = .cmd .xorData := by decide
theorem test_decode_xorRes : decode 0b00000000000000000000000000_10_0011#32 = .cmd .xorRes := by decide

/-- The illegal words of R107's corner cases and of vectors N5, N6. -/
theorem test_decode_illegal :
    decode 0x00000010#32 = .illegal .nopOperand 0x00000010#32 ∧
      decode 0x00000031#32 = .illegal .reservedBuffer 0x00000031#32 ∧
      decode 0x00000101#32 = .illegal .reservedBits 0x00000101#32 ∧
      decode 0x00000004#32 = .illegal .reservedOp 0x00000004#32 ∧
      decode 0xFFFFFFFF#32 = .illegal .reservedBits 0xFFFFFFFF#32 ∧
      decode 0x40000003#32 = .illegal .reservedBits 0x40000003#32 := by decide

theorem test_table_words :
    decodeTableWord 32 0x23 = some .xorRes ∧ decodeTableWord 32 0x11 = some .encodeData ∧
      decodeTableWord 32 0x33 = none := by decide

/-! ### the checks on syntax refuse ill-formed terms -/

theorem test_wf_rsv : ¬ (Fields.WellFormed { op := 0#4, a := 0#2, rsv := 1#26 }) := by decide
theorem test_wf_nop_operand : ¬ (Fields.WellFormed { op := 0#4, a := 1#2, rsv := 0#26 }) := by decide
theorem test_wf_reserved_op : ¬ (Fields.WellFormed { op := 4#4, a := 0#2, rsv := 0#26 }) := by decide
theorem test_wf_reserved_buffer : ¬ (Fields.WellFormed { op := 3#4, a := 3#2, rsv := 0#26 }) := by decide
theorem test_wf_window : ¬ (Target.window .key 1024).WellFormed ∧ (Target.window .key 1023).WellFormed := by decide
theorem test_wf_text : ¬ (HostStmt.wr (.text 1024) 0#32).WellFormed ∧ ¬ (HostStmt.rd (.text 1024)).WellFormed := by
  decide
theorem test_wf_maxBits :
    ¬ Config.LegalMaxBits 0 ∧ ¬ Config.LegalMaxBits 48 ∧ ¬ Config.LegalMaxBits 8224 ∧ Config.LegalMaxBits 32 ∧
      Config.LegalMaxBits 8192 := by decide

/-! ### small states: the least instance, MAXBITS = 32, with one window word and four characters -/

/-- The least instance, idle, everything 0. -/
def blank : State :=
  { State.reset with
    maxBits := 32
    key := List.replicate 32 false
    data := List.replicate 32 false
    res := List.replicate 32 false
    text := List.replicate 4 0#32 }

/-- `blank` with the text of TLEN characters. -/
def withText (t : List Word) (n : Word) : State := { blank with text := t, tlen := n }

/-- `blank` with KEY and DATA words and their lengths. -/
def withKeyData (k d kl dl : Word) : State :=
  { blank with key := unpackWord k, data := unpackWord d, klen := kl, dlen := dl }

/-- `s` with the command word `w` pending. -/
def busy (s : State) (w : Word) : State := s.accept w

/-- The state a step or meaning answers, if it does. -/
def answer : Host.Outcome State Fault Refusal → Option State
  | .next t => some t
  | _ => none

/-! ### the spec's vectors -/

/-- Vector N1: NOP after a failure. -/
theorem test_nop : (answer (exec .nop { blank with done := true, err := .lengthMismatch })).map State.status
    = some 0x00000002#32 := by decide

/-- Vector E7 at MAXBITS = 32: 255 in every entry fills the buffer. -/
theorem test_encodeKey : (answer (exec .encodeKey (withText [255#32, 255#32, 255#32, 255#32] 4#32))).map
    (fun t => (packWord t.key 0, t.klen)) = some (0xFFFFFFFF#32, 32#32) := by decide

/-- Vectors E5 and E11: two characters; the entries at and above TLEN are not read. -/
theorem test_encodeData : (answer (exec .encodeData (withText [104#32, 105#32, 999#32, 0#32] 2#32))).map
    (fun t => (packWord t.data 0, t.dlen, t.status)) = some (0x68690000#32, 16#32, 0x00000002#32) := by decide

/-- Vector E10: the least offending index. -/
theorem test_encodeData_codeRange : (answer (exec .encodeData (withText [300#32, 256#32, 0#32, 0#32] 2#32))).map
    (fun t => (t.status, t.einfo, t.dlen)) = some (0x00000402#32, 0#32, 0#32) := by decide

/-- Vector E6 at the reference instance MAXBITS = 128. -/
theorem test_encodeRes : (answer (exec .encodeRes
      { State.reset with text := [1#32, 2#32, 3#32, 4#32, 5#32] ++ List.replicate 11 0#32, tlen := 5#32 })).map
    (fun t => (packWord t.res 0, packWord t.res 1, packWord t.res 2, t.rlen))
      = some (0x01020304#32, 0x05000000#32, 0#32, 40#32) := by decide

/-- Vector D7 at MAXBITS = 32. -/
theorem test_decodeKey : (answer (exec .decodeKey (withKeyData 0xFFFFFFFF#32 0#32 32#32 0#32))).map
    (fun t => (t.text, t.tlen, t.trail)) = some (List.replicate 4 255#32, 4#32, false) := by decide

/-- Vector D4: a trailing chunk of three bits. -/
theorem test_decodeData : (answer (exec .decodeData (withKeyData 0#32 0x68A00000#32 0#32 11#32))).map
    (fun t => (t.text, t.tlen, t.status)) = some ([104#32, 5#32, 0#32, 0#32], 2#32, 0x00000006#32) := by decide

/-- Vector D9: the largest length register. -/
theorem test_decodeRes : (answer (exec .decodeRes { blank with rlen := 0xFFFFFFFF#32 })).map
    (fun t => (t.status, t.einfo)) = some (0x00000202#32, 2#32) := by decide

/-- Source scenario S10: the ciphertext of S2 decoded. -/
theorem test_decodeRes_s10 : (answer (exec .decodeRes { blank with res := unpackWord 0x97000000#32, rlen := 8#32 })).map
    (fun t => t.text) = some [151#32, 0#32, 0#32, 0#32] := by decide

/-- Vector X9: the destination is a source. -/
theorem test_xorKey : (answer (exec .xorKey (withKeyData 0xFF000000#32 0x68000000#32 8#32 8#32))).map
    (fun t => (packWord t.key 0, t.klen, packWord t.data 0)) = some (0x97000000#32, 8#32, 0x68000000#32) := by decide

/-- Vector X8, its first step. -/
theorem test_xorData : (answer (exec .xorData (withKeyData 0xFF000000#32 0x68000000#32 8#32 8#32))).map
    (fun t => (packWord t.data 0, t.dlen, packWord t.key 0)) = some (0x97000000#32, 8#32, 0xFF000000#32) := by decide

/-- Vector X6: positions from the length on are 0. -/
theorem test_xorRes : (answer (exec .xorRes (withKeyData 0xFFFFFFFF#32 0#32 12#32 12#32))).map
    (fun t => (packWord t.res 0, t.rlen, t.status)) = some (0xFFF00000#32, 12#32, 0x00000002#32) := by decide

/-- Vector X10: out of range comes before the mismatch. -/
theorem test_xorRes_lenRange : (answer (exec .xorRes (withKeyData 0#32 0#32 9000#32 8#32))).map
    (fun t => (t.status, t.einfo)) = some (0x00000202#32, 0#32) := by decide

/-- Vector N10 at the reference instance. -/
theorem test_port_constants : (hostRead 0x0000#16 State.reset).1 = 0x42430001#32 ∧
    (hostRead 0x0004#16 State.reset).1 = 0x00000080#32 ∧ (hostRead 0x0008#16 State.reset).1 = 0#32 := by decide

/-- Vector N11: KEY word 4 is beyond MAXWORDS = 4. -/
theorem test_port_reserved : (hostRead 0x1010#16 State.reset).1 = 0#32 ∧
    hostWrite 0x1010#16 1#32 State.reset = State.reset := by decide +kernel

/-- Vector N7: STATUS between acceptance and completion. -/
theorem test_port_accept :
    (hostWrite 0x0008#16 0x23#32 { blank with done := true, err := .codeRange, einfo := 1#32 }).status
      = 0x00000001#32 := by decide

/-- Vector N8: a write while busy. -/
theorem test_port_busy_write : (hostWrite 0x0020#16 16#32 (busy blank 0x23#32)).klen = 0#32 ∧
    (hostWrite 0x0020#16 16#32 (busy blank 0x23#32)).hzd = true := by decide

/-- Vector N13: the first position of a word is its bit 31. -/
theorem test_port_packing : (hostWrite 0x2000#16 0x80000000#32 blank).data = true :: List.replicate 31 false := by
  decide

/-- The next step after `withFetchWord` runs the word, right after reset. -/
theorem test_fetchWord : (answer (step (State.reset.withFetchWord 32 0x23))).map (fun t => (t.status, t.rlen))
    = some (0x00000002#32, 0#32) := by decide

/-- R90: mnemonics are case-insensitive; what is no command does not assemble. -/
theorem test_assemble :
    assemble ['x', 'o', 'r', ' ', 'R', 'e', 's'] = some 0x23#32 ∧
      assemble ['.', 'c', 'm', 'd', ' ', '0', 'x', '4', '0', '0', '0', '0', '0', '0', '3'] = some 0x40000003#32 ∧
      assemble ['X', 'O', 'R'] = none := by decide

/-! ### witnesses: for every statement with hypotheses, states and operands that meet them, at the boundary values -/

/-- The texts: as long as MAXCHARS with the largest code point, one longer, and with a code point just above 255. -/
def fullText : State := withText [104#32, 255#32, 0#32, 1#32] 4#32
def longText : State := withText [104#32, 255#32, 0#32, 1#32] 5#32
def wideText : State := withText [104#32, 256#32, 300#32, 1#32] 2#32

theorem fullText_ready : fullText.EncodeReady := by
  refine ⟨by decide, fun c hc => ?_⟩
  have h : c ∈ [104#32, 255#32, 0#32, 1#32] := hc
  simp only [List.mem_cons, List.not_mem_nil, or_false] at h
  rcases h with rfl | rfl | rfl | rfl <;> decide

theorem blank_ready : blank.EncodeReady := ⟨by decide, fun _ hc => nomatch (show _ ∈ [] from hc)⟩

theorem witness_LegalWordsAreTheTenOfTheTable : ∀ i, ((0x00000031#32 : Word), i) ∉ legalTable := by
  intro i; cases i <;> decide

theorem witness_LegalityIsDecidedByTheFields : ¬ ∃ i, decode 0x00000004#32 = .cmd i := by
  rintro ⟨i, h⟩; cases i <;> revert h <;> decide

theorem witness_NopClearsTheRecordAndWritesNoOperand :
    (0x00000010#32).extractLsb' 0 4 = 0#4 ∧ 0x00000010#32 ≠ 0x00000000#32 := by decide

theorem witness_StepRunsTheDecodedCommand :
    (busy blank 0x23#32).EngineNext [] ∧
      ({ busy blank 0x23#32 with turns := [.engine, .host] } : State).EngineNext [.host] ∧
      (busy blank 0x23#32).pend = true ∧ decode (busy blank 0x23#32).pcmd = .cmd .xorRes := by decide

theorem witness_StepOnAnIllegalWordRecordsIllegalCmd :
    (busy blank 0x04#32).EngineNext [] ∧ (busy blank 0x04#32).pend = true ∧
      ∀ i, ((busy blank 0x04#32).pcmd, i) ∉ legalTable :=
  ⟨by decide, by decide, by intro i; cases i <;> decide⟩

theorem witness_IdleEngineTurnChangesNothing :
    ({ blank with turns := [.engine] } : State).turns = [.engine] ∧
      ({ blank with turns := [.engine] } : State).pend = false := by decide

theorem witness_EncodeWritesTheCodePoints :
    fullText.Inv ∧ fullText.EncodeReady ∧ fullText.tlen.toNat = fullText.maxChars ∧ blank.Inv ∧ blank.EncodeReady :=
  ⟨by decide, fullText_ready, by decide, by decide, blank_ready⟩

theorem witness_EncodeOfATooLongTextFails : longText.maxChars < longText.tlen.toNat := by decide

theorem witness_EncodeOfACodePointAbove255Fails :
    wideText.tlen.toNat ≤ wideText.maxChars ∧ 1 < wideText.tlen.toNat ∧ 255 < (wideText.text.getD 1 0#32).toNat ∧
      ∀ i < 1, (wideText.text.getD i 0#32).toNat ≤ 255 := by decide

theorem witness_EncodedWordsHoldFourCharacters :
    fullText.Inv ∧ fullText.EncodeReady ∧ 0 < fullText.maxWords ∧
      ∃ t, exec (Instr.encodeInto .data) fullText = .next t :=
  ⟨by decide, fullText_ready, by decide, _, exec_encodeInto _ _⟩

theorem witness_DecodeWritesTheChunkValues :
    (withKeyData 0#32 0#32 32#32 11#32).Inv ∧ (withKeyData 0#32 0#32 32#32 11#32).DecodeReady .key ∧
      (withKeyData 0#32 0#32 32#32 11#32).DecodeReady .data ∧ (withKeyData 0#32 0#32 32#32 11#32).DecodeReady .res := by
  decide

theorem witness_DecodeOfATooLongStringFails :
    ({ blank with rlen := 33#32 } : State).maxBits < (({ blank with rlen := 33#32 } : State).len .res).toNat ∧
      ({ blank with rlen := 32#32 } : State).Inv ∧
      (({ blank with rlen := 32#32 } : State).len .res).toNat ≤ ({ blank with rlen := 32#32 } : State).maxBits := by
  decide

theorem witness_TrailTellsAShortChunkOfADecode :
    ∃ t, execWord 0x12#32 (withKeyData 0#32 0xE0000000#32 0#32 3#32) = .next t ∧ t.trail = true := ⟨_, rfl, by decide⟩

theorem witness_XorWritesTheTransform :
    (withKeyData 0xFF#32 0x0F#32 32#32 32#32).Inv ∧ (withKeyData 0xFF#32 0x0F#32 32#32 32#32).XorReady := by decide

theorem witness_XorOfDifferentLengthsFails :
    (withKeyData 0#32 0#32 32#32 31#32).klen.toNat ≤ 32 ∧ (withKeyData 0#32 0#32 32#32 31#32).dlen.toNat ≤ 32 ∧
      (withKeyData 0#32 0#32 32#32 31#32).maxBits = 32 ∧
      (withKeyData 0#32 0#32 32#32 31#32).klen ≠ (withKeyData 0#32 0#32 32#32 31#32).dlen := by decide

theorem witness_XorOfATooLongOperandFails :
    (withKeyData 0#32 0#32 33#32 33#32).maxBits < (withKeyData 0#32 0#32 33#32 33#32).klen.toNat ∧
      (withKeyData 0#32 0#32 32#32 33#32).klen.toNat ≤ (withKeyData 0#32 0#32 32#32 33#32).maxBits ∧
      (withKeyData 0#32 0#32 32#32 33#32).maxBits < (withKeyData 0#32 0#32 32#32 33#32).dlen.toNat := by decide

theorem witness_XorOfEmptyOperandsClearsTheDestination : blank.klen = 0#32 ∧ blank.dlen = 0#32 := by decide

theorem witness_XorredWordsAreMaskedByTheLength :
    (withKeyData 0xFF000000#32 0#32 12#32 12#32).Inv ∧ (withKeyData 0xFF000000#32 0#32 12#32 12#32).XorReady ∧
      0 < (withKeyData 0xFF000000#32 0#32 12#32 12#32).maxWords ∧
      (∀ k < 32, (0xFFF00000#32).getLsbD (31 - k) = decide (32 * 0 + k < 12)) ∧
      ∃ t, exec (Instr.xorInto .res) (withKeyData 0xFF000000#32 0#32 12#32 12#32) = .next t :=
  ⟨by decide, by decide, by decide, by decide +kernel, _, rfl⟩

/-- A key that is not zero for the first clause, and one that is for the second. -/
theorem witness_XorIsCommutativeWithZeroAsIdentity :
    (withKeyData 0xA5000000#32 0x68000000#32 8#32 8#32).Inv ∧ (withKeyData 0xA5000000#32 0x68000000#32 8#32 8#32).XorReady ∧
      (withKeyData 0x00FFFFFF#32 0x68000000#32 8#32 8#32).XorReady ∧
      (∀ p < 8, bitAt (withKeyData 0x00FFFFFF#32 0x68000000#32 8#32 8#32).key p = false) ∧
      (∃ t, exec (Instr.xorInto .key) (withKeyData 0xA5000000#32 0x68000000#32 8#32 8#32) = .next t) ∧
      ∃ t, exec (Instr.xorInto .key) (withKeyData 0x00FFFFFF#32 0x68000000#32 8#32 8#32) = .next t :=
  ⟨by decide, by decide, by decide, by decide, ⟨_, exec_xorInto _ _⟩, _, exec_xorInto _ _⟩

theorem witness_EncodeThenDecodeGivesBackTheText :
    fullText.Inv ∧ fullText.EncodeReady ∧
      ∃ t u, exec (Instr.encodeInto .res) fullText = .next t ∧ exec (Instr.decodeFrom .res) t = .next u :=
  ⟨by decide, fullText_ready, _, _, exec_encodeInto _ _, exec_decodeFrom _ _⟩

/-- A length that is a multiple of 8 and one that is not. -/
theorem witness_DecodeThenEncodePadsTheShortChunk :
    (withKeyData 0#32 0xA0000000#32 0#32 32#32).Inv ∧ (withKeyData 0#32 0xA0000000#32 0#32 32#32).DecodeReady .data ∧
      (withKeyData 0#32 0xA0000000#32 0#32 3#32).Inv ∧ (withKeyData 0#32 0xA0000000#32 0#32 3#32).DecodeReady .data ∧
      (∃ t u, exec (Instr.decodeFrom .data) (withKeyData 0#32 0xA0000000#32 0#32 32#32) = .next t ∧
        exec (Instr.encodeInto .data) t = .next u) ∧
      ∃ t u, exec (Instr.decodeFrom .data) (withKeyData 0#32 0xA0000000#32 0#32 3#32) = .next t ∧
        exec (Instr.encodeInto .data) t = .next u :=
  ⟨by decide, by decide, by decide, by decide, ⟨_, _, exec_decodeFrom _ _, exec_encodeInto _ _⟩, _, _,
    exec_decodeFrom _ _, exec_encodeInto _ _⟩

theorem witness_XorDataTwiceGivesBackTheData :
    (withKeyData 0xFF000000#32 0x68000000#32 8#32 8#32).Inv ∧ (withKeyData 0xFF000000#32 0x68000000#32 8#32 8#32).XorReady ∧
      ∃ t u, exec .xorData (withKeyData 0xFF000000#32 0x68000000#32 8#32 8#32) = .next t ∧
        exec .xorData t = .next u := ⟨by decide, by decide, _, _, exec_xorInto .data _, exec_xorInto .data _⟩

/-- Two states that agree on the operands and differ beyond the lengths. -/
theorem witness_OutcomeDependsOnOperandStringsOnly :
    (withKeyData 0xFF00AAAA#32 0x68000000#32 8#32 8#32).Inv ∧ (withKeyData 0xFF005555#32 0x68111111#32 8#32 8#32).Inv ∧
      OperandsAgree (withKeyData 0xFF00AAAA#32 0x68000000#32 8#32 8#32)
        (withKeyData 0xFF005555#32 0x68111111#32 8#32 8#32) ∧
      (∃ t, execWord 0x23#32 (withKeyData 0xFF00AAAA#32 0x68000000#32 8#32 8#32) = .next t) ∧
      ∃ t, execWord 0x23#32 (withKeyData 0xFF005555#32 0x68111111#32 8#32 8#32) = .next t :=
  ⟨by decide, by decide, ⟨rfl, by intro a; cases a <;> decide, rfl, rfl⟩, ⟨_, rfl⟩, _, rfl⟩

/-- Every error code is recorded by some word in some state. -/
theorem witness_ErrorCodesSayWhatRaisedThem :
    (∃ t, execWord 0x00#32 blank = .next t ∧ t.err = .none) ∧
      (∃ t, execWord 0x31#32 blank = .next t ∧ t.err = .illegalCmd) ∧
      (∃ t, execWord 0x01#32 longText = .next t ∧ t.err = .lenRange) ∧
      (∃ t, execWord 0x23#32 (withKeyData 0#32 0#32 32#32 31#32) = .next t ∧ t.err = .lengthMismatch) ∧
      ∃ t, execWord 0x21#32 wideText = .next t ∧ t.err = .codeRange :=
  ⟨⟨_, rfl, by decide⟩, ⟨_, rfl, by decide⟩, ⟨_, rfl, by decide⟩, ⟨_, rfl, by decide⟩, _, rfl, by decide⟩

theorem witness_AFailingCommandWritesNoOperand :
    ∃ t, execWord 0x01#32 longText = .next t ∧ t.err ≠ .none := ⟨_, rfl, by decide⟩

theorem witness_AWriteToCmdIsAccepted : blank.pend = false := by decide

theorem witness_AWriteWhileBusyIsDropped :
    ({ busy blank 0x23#32 with turns := [.host], host := [.wr (.window .key 0) 1#32] } : State).turns = [.host] ∧
      ({ busy blank 0x23#32 with turns := [.host], host := [.wr (.window .key 0) 1#32] } : State).pend = true ∧
      ({ busy blank 0x23#32 with turns := [.host], host := [.wr (.window .key 0) 1#32] } : State).host
        = [.wr (.window .key 0) 1#32] := by decide

theorem witness_LengthRegistersStoreAnyWord : blank.pend = false := by decide

/-- The last window word, of each buffer, at an address whose low bits are not 0. -/
theorem witness_AWindowWriteStoresItsBits :
    State.reset.Inv ∧ State.reset.pend = false ∧ 3 < State.reset.maxWords ∧
      (0x100F#16).toNat / 4 * 4 = 0x1000 * (0 + 1) + 4 * 3 ∧ (0x200D#16).toNat / 4 * 4 = 0x1000 * (1 + 1) + 4 * 3 ∧
      (0x300C#16).toNat / 4 * 4 = 0x1000 * (2 + 1) + 4 * 3 := by
  refine ⟨⟨by decide, resetStore, by decide, by decide⟩, by decide, by decide, by decide, by decide, by decide⟩
where resetStore : Memory.wf State.reset := by simp [Memory.wf, State.reset, Config.referenceMaxBits]

theorem witness_ATextWriteStoresItsCodePoint :
    blank.Inv ∧ blank.pend = false ∧ 3 < blank.maxChars ∧ (0x400E#16).toNat / 4 * 4 = 0x4000 + 4 * 3 := by decide

/-- Every range of reserved offsets at its first and last word, and window words just beyond capacity; a busy and an
idle state. -/
theorem witness_ReservedAddressesReadZero :
    (∀ o ∈ [0x0014, 0x001C, 0x0030, 0x0FFC, 0x1004, 0x1FFC, 0x2004, 0x3FFC, 0x4010, 0x4FFC, 0x5000, 0xFFFC],
      ReservedOffset blank.maxBits o) ∧
      (∀ o ∈ [0x0010, 0x0020, 0x002C, 0x1000, 0x3000, 0x400C], ¬ ReservedOffset blank.maxBits o) ∧
      blank.pend = false ∧ (busy blank 0#32).pend = true := by decide

theorem witness_IdAndCapReadTheirConstants :
    blank.Inv ∧ blank.pend = false ∧ (busy blank 0#32).Inv ∧ (busy blank 0#32).pend = true := by decide

theorem witness_StatusReadsItsFields : blank.pend = false ∧ (busy blank 0#32).pend = true := by decide

theorem witness_EinfoReadsItsValueAndCmdReadsZero : blank.pend = false ∧ (busy blank 0#32).pend = true := by decide

theorem witness_IdleReadsReturnTheStoredWords :
    blank.Inv ∧ blank.pend = false ∧ 0 < blank.maxWords ∧ (0x3000#16).toNat / 4 * 4 = 0x1000 * (2 + 1) + 4 * 0 ∧
      3 < blank.maxChars ∧ (0x400C#16).toNat / 4 * 4 = 0x4000 + 4 * 3 := by decide

/-- The ends of each range: the length registers, the windows, TEXT. -/
theorem witness_BusyOperandReadsDrawAFreshWord :
    (busy blank 0#32).Inv ∧ (busy blank 0#32).pend = true ∧
      (0x0020 ≤ (0x0020#16).toNat ∧ (0x002F#16).toNat ≤ 0x002F) ∧
      (0x1000 ≤ (0x3003#16).toNat ∧ (0x3003#16).toNat ≤ 0x3FFF ∧ (0x3003#16).toNat % 0x1000 / 4 < (busy blank 0#32).maxWords) ∧
      (0x4000 ≤ (0x400F#16).toNat ∧ (0x400F#16).toNat ≤ 0x4FFF ∧
        (0x400F#16).toNat % 0x1000 / 4 < (busy blank 0#32).maxChars) := by decide

theorem witness_RdReturnsTheWordRead :
    ({ blank with host := [.rd (.reg .status)] } : State).HostNext [] ∧
      ({ blank with turns := [.host], host := [.rd (.reg .status)] } : State).HostNext [] := by decide

/-- POLL met idle and busy. -/
theorem witness_PollWaitsWhileBusy :
    ({ blank with host := [.poll] } : State).HostNext [] ∧
      ({ busy blank 0#32 with turns := [.host], host := [.poll] } : State).HostNext [] := by decide

/-- HZD set by a write while busy, kept by an engine step, and cleared by reset. -/
theorem witness_HzdIsStickyUntilReset :
    (∃ t, step { busy blank 0#32 with turns := [.host], host := [.wr (.reg .cmd) 0#32] } = .next t ∧ t.hzd = true) ∧
      (∃ t, step { busy blank 0#32 with hzd := true } = .next t ∧ t.hzd = true) ∧
      ∃ t, step { blank with hzd := true, turns := [.reset] } = .next t ∧ t.hzd = false :=
  ⟨⟨_, rfl, by decide⟩, ⟨_, rfl, by decide⟩, _, rfl, by decide⟩

theorem witness_AWriteToCmdThatLeavesHzdClearWasAccepted :
    ({ blank with host := [.wr (.reg .cmd) 0x23#32] } : State).HostNext [] ∧
      ∃ t, step { blank with host := [.wr (.reg .cmd) 0x23#32] } = .next t ∧ t.ProtocolOk :=
  ⟨by decide, _, rfl, by decide⟩

theorem witness_AFinishedRunStaysFinished :
    blank.RunOver ∧ (nextTurn blank).1 ≠ .reset ∧ ∃ t, step blank = .next t := ⟨by decide, by decide, _, rfl⟩

/-- A write to a length register, and a write to CMD that is dropped. -/
theorem witness_TheHostChangesStatusOnlyByAcceptance :
    (∃ t, step { blank with host := [.wr (.reg .klen) 8#32] } = .next t) ∧
      (nextTurn { blank with host := [.wr (.reg .klen) 8#32] }).1 = .host ∧
      (targetAddr (.reg .klen)).toNat / 4 ≠ 2 ∧
      (nextTurn { busy blank 0#32 with turns := [.host], host := [.wr (.reg .cmd) 0#32] }).1 = .host ∧
      ({ busy blank 0#32 with turns := [.host], host := [.wr (.reg .cmd) 0#32] } : State).pend = true :=
  ⟨⟨_, rfl⟩, by decide, by decide, by decide, by decide⟩

theorem witness_OperandsAreFixedWhileACommandIsPending :
    (∃ t, step { busy blank 0#32 with turns := [.host], host := [.rd (.reg .klen)] } = .next t) ∧
      ({ busy blank 0#32 with turns := [.host], host := [.rd (.reg .klen)] } : State).pend = true ∧
      (nextTurn { busy blank 0#32 with turns := [.host], host := [.rd (.reg .klen)] }).1 = .host :=
  ⟨⟨_, rfl⟩, by decide, by decide⟩

/-- The state of program 5 of the vectors, at its race. -/
theorem witness_AWriteRacingTheEngineHasBothOutcomes :
    ({ busy (withKeyData 0xFF000000#32 0x68000000#32 8#32 8#32) 0x23#32 with
      host := [.wr (.reg .klen) 16#32] } : State).pend = true ∧
      ∃ e, execWord 0x23#32 { busy (withKeyData 0xFF000000#32 0x68000000#32 8#32 8#32) 0x23#32 with
        host := [.wr (.reg .klen) 16#32], turns := [] } = .next e := ⟨by decide, _, rfl⟩

theorem witness_ResetClearsTheBlock :
    ({ busy blank 0x23#32 with turns := [.reset] } : State).turns = [.reset] := by decide

/-- States of each kind that meet the invariant and step: idle, pending, with a host write, at reset. -/
theorem witness_EveryStepKeepsTheInvariant :
    fullText.Inv ∧ (busy fullText 0x11#32).Inv ∧ ({ fullText with host := [.wr (.text 3) 7#32] } : State).Inv ∧
      ({ busy fullText 0x11#32 with turns := [.reset] } : State).Inv ∧
      ∃ t, step (busy fullText 0x11#32) = .next t := ⟨by decide, by decide, by decide, by decide, _, rfl⟩

/-- A command pending with host turns to come, without a reset and with one. -/
theorem witness_APendingCommandCompletesAsIssued :
    ({ busy blank 0x23#32 with turns := [.host, .host] } : State).pend = true ∧
      Turn.reset ∉ ({ busy blank 0x23#32 with turns := [.host, .host] } : State).turns ∧
      ({ busy blank 0x23#32 with turns := [.host, .reset] } : State).pend = true := by decide

end Sys2Proof.Tests
end

/-! The state of the block (10_state.md): what each of its registers reads and takes, who writes STATUS, and the
invariant that every step keeps. -/

namespace Sys2Proof.Machine

/-! ### who writes STATUS, EINFO and PCMD (R30, R31) -/

theorem sameStatus_refl (s : State) : SameStatus s s := ⟨rfl, rfl, rfl, rfl, rfl, rfl, rfl⟩

theorem setBuf_sameStatus (s : State) (a : Buf) (b : Bits) : SameStatus s (s.setBuf a b) := by simp [SameStatus]

/-- A read records its word and perhaps counts a draw; it writes nothing of the block. -/
theorem readAndLog_sameBlock (addr : Addr) (s : State) : SameBlock s (readAndLog addr s) := by
  rcases readAndLog_cases addr s with e | ⟨-, e⟩ <;> rw [e] <;> simp [SameBlock, SameOperands, SameBuf, SameText, SameStatus]

/-- A write while BUSY = 0 accepts a command at the word of CMD, or leaves STATUS, EINFO and PCMD. -/
theorem writeIdle_accepts_or_sameStatus (addr : Addr) (v : Word) (s : State) :
    (s.place addr = .reg .cmd ∧ writeIdle addr v s = s.accept v) ∨ SameStatus s (writeIdle addr v s) := by
  rcases writeIdle_cases addr v s with h | ⟨-, e⟩ | ⟨-, e⟩ | ⟨-, e⟩ | ⟨-, e⟩ | ⟨a, w, -, -, e⟩ | ⟨j, -, -, e⟩ | e
  · exact .inl h
  all_goals rw [e]; right
  · exact sameStatus_refl s
  · exact sameStatus_refl s
  · exact sameStatus_refl s
  · exact sameStatus_refl s
  · exact setBuf_sameStatus s a _
  · exact sameStatus_refl s
  · exact sameStatus_refl s

theorem writeIdle_maxBits (addr : Addr) (v : Word) (s : State) : (writeIdle addr v s).maxBits = s.maxBits := by
  rcases writeIdle_cases addr v s with ⟨-, e⟩ | ⟨-, e⟩ | ⟨-, e⟩ | ⟨-, e⟩ | ⟨-, e⟩ | ⟨a, w, -, -, e⟩ | ⟨j, -, -, e⟩ | e <;>
    simp [e]

theorem hostWrite_maxBits (addr : Addr) (v : Word) (s : State) : (hostWrite addr v s).maxBits = s.maxBits := by
  cases hp : s.pend with
  | true => rw [hostWrite_busy addr v hp]
  | false => rw [hostWrite_idle addr v hp, writeIdle_maxBits]

theorem hostTurn_maxBits (s : State) : (hostTurn s).maxBits = s.maxBits := by
  rcases hostTurn_cases s with e | ⟨target, v, rest, -, e⟩ | ⟨target, rest, -, e⟩ | ⟨rest, -, e⟩
  · rw [e]
  · rw [e, hostWrite_maxBits]
  · rw [e, (readAndLog_sameBlock _ _).1]
  · rw [e]

theorem hostTurn_wf {s : State} (h : Memory.wf s) : Memory.wf (hostTurn s) := by
  rcases hostTurn_cases s with e | ⟨target, v, rest, -, e⟩ | ⟨target, rest, -, e⟩ | ⟨rest, -, e⟩
  · rw [e]; exact h
  · rw [e]; exact hostWrite_wf (s := { s with host := rest }) h _ _
  · rw [e]; exact readAndLog_wf (s := { s with host := rest }) h _
  · rw [e]; exact h

theorem hostTurn_wr {s : State} {target : Target} {v : Word} {rest : List HostStmt}
    (h : s.host = .wr target v :: rest) :
    hostTurn s = hostWrite (targetAddr target) v { s with host := rest } := by simp [hostTurn, h, hostStmt]

/-- A host step that is no write leaves STATUS, EINFO and PCMD. -/
theorem hostTurn_sameStatus_of_no_write {s : State} (h : ∀ target v rest, s.host ≠ .wr target v :: rest) :
    SameStatus s (hostTurn s) := by
  rcases hostTurn_cases s with e | ⟨target, v, rest, hh, -⟩ | ⟨target, rest, -, e⟩ | ⟨rest, -, e⟩
  · rw [e]; exact sameStatus_refl s
  · exact absurd hh (h target v rest)
  · rw [e]; exact (readAndLog_sameBlock _ _).2.2
  · rw [e]; exact sameStatus_refl s

/-- What the host's step does to STATUS, EINFO and PCMD: it accepts a command, at a write to CMD while BUSY = 0; it
sets HZD alone, at a write while BUSY = 1; or it leaves them all (R30, R31, R101, R184). -/
theorem hostTurn_status_cases (s : State) :
    (∃ target v rest, s.host = .wr target v :: rest ∧ s.pend = false ∧ s.place (targetAddr target) = .reg .cmd ∧
        hostTurn s = ({ s with host := rest } : State).accept v) ∨
      (∃ target v rest, s.host = .wr target v :: rest ∧ s.pend = true ∧
        hostTurn s = { s with host := rest, hzd := true }) ∨
      ((∀ target v rest, s.host = .wr target v :: rest → s.pend = false) ∧ SameStatus s (hostTurn s)) := by
  by_cases h : ∃ target v rest, s.host = .wr target v :: rest
  · obtain ⟨target, v, rest, hh⟩ := h
    rw [hostTurn_wr hh]
    rcases Bool.eq_false_or_eq_true s.pend with hp | hp
    · exact .inr (.inl ⟨target, v, rest, hh, hp, hostWrite_busy _ v hp⟩)
    · rw [hostWrite_idle (s := { s with host := rest }) _ v hp]
      rcases writeIdle_accepts_or_sameStatus (targetAddr target) v { s with host := rest } with ⟨hc, e⟩ | hs
      · exact .inl ⟨target, v, rest, hh, hp, hc, e⟩
      · exact .inr (.inr ⟨fun _ _ _ _ => hp, hs⟩)
  · have hn : ∀ target v rest, s.host ≠ .wr target v :: rest := fun target v rest hh => h ⟨target, v, rest, hh⟩
    exact .inr (.inr ⟨fun target v rest hh => absurd hh (hn target v rest), hostTurn_sameStatus_of_no_write hn⟩)

/-- The host's step sets HZD exactly at a write while BUSY = 1, and never clears it. -/
theorem hostTurn_hzd (s : State) :
    (hostTurn s).hzd = true ↔
      s.hzd = true ∨ (s.pend = true ∧ ∃ target v rest, s.host = .wr target v :: rest) := by
  rcases hostTurn_status_cases s with ⟨_, _, _, -, hp, -, e⟩ | ⟨target, v, rest, hh, hp, e⟩ | ⟨hw, hs⟩
  · simp [e, hp]
  · simp [e, hh, hp]
  · obtain ⟨-, -, -, hz, -⟩ := hs
    rw [hz, or_iff_left]
    rintro ⟨hp, target, v, rest, hh⟩
    simp [hw target v rest hh] at hp

theorem eq_regOffset_of_regAt {o : Nat} {r : Reg} (h : regAt o = some r) : o = regOffset r := by
  unfold regAt at h
  split_ifs at h <;> (cases h; assumption)

/-- Only the word-aligned offset of a register reaches it (R52). -/
theorem eq_regOffset_of_placeAt {m o : Nat} {r : Reg} (h : placeAt m o = .reg r) : o = regOffset r := by
  unfold placeAt windowPlace textPlace at h
  cases hr : regAt o with
  | some r' =>
    rw [hr] at h
    split_ifs at h
    cases h
    exact eq_regOffset_of_regAt hr
  | none =>
    rw [hr] at h
    split_ifs at h

/-! ### the invariant -/

theorem resetBlock_inv {s : State} (h : Config.LegalMaxBits s.maxBits) : (resetBlock s).Inv :=
  ⟨h, resetBlock_wf s, by simp [State.PendingClear], by simp [State.OutcomeConsistent]⟩

theorem accept_inv {s : State} (h : s.Inv) (v : Word) : (s.accept v).Inv :=
  ⟨h.1, h.2.1, by simp [State.PendingClear], by simp [State.OutcomeConsistent]⟩

/-- The invariant speaks of MAXBITS, the operand store's form and the status fields. -/
theorem inv_of_sameStatus {s t : State} (h : s.Inv) (hm : t.maxBits = s.maxBits) (hw : Memory.wf t)
    (hs : SameStatus s t) : t.Inv := by
  obtain ⟨hl, -, hc, ho⟩ := h
  obtain ⟨hpend, hdone, htrail, -, herr, heinfo, -⟩ := hs
  refine ⟨hm ▸ hl, hw, ?_, ?_⟩
  · rw [State.PendingClear, hpend, hdone, htrail, herr, heinfo]; exact hc
  · rw [State.OutcomeConsistent, htrail, herr, heinfo]; exact ho

/-- DECODE's outcomes (R105, R125, R128). -/
theorem decodeOutcome_cases (a : Buf) (s : State) :
    (s.maxBits < (s.len a).toNat ∧ decodeOutcome a s = .error .lenRange (lenId a)) ∨
      (s.DecodeReady a ∧
        decodeOutcome a s = .ok (.text (decodeBits (s.val a))) (decide ((s.len a).toNat % 8 ≠ 0))) := by
  by_cases h : s.maxBits < (s.len a).toNat
  · exact .inl ⟨h, decodeOutcome_tooLong a h⟩
  · exact .inr ⟨Nat.not_lt.mp h, decodeOutcome_ready a (Nat.not_lt.mp h)⟩

/-- A recorded error is one of R160's codes 1 to 4. -/
theorem outcomeOf_ne_error_none (w : Word) (s : State) (i : Word) : outcomeOf w s ≠ .error .none i := by
  rcases outcomeOf_cases w s with ⟨-, e⟩ | ⟨a, -, e⟩ | ⟨a, -, e⟩ | ⟨a, -, e⟩ | ⟨-, -, e⟩
  all_goals rw [e]
  · simp
  · rcases encodeOutcome_cases a s with ⟨-, e⟩ | ⟨_, -, -, e⟩ | ⟨-, e⟩ <;> simp [e]
  · rcases decodeOutcome_cases a s with ⟨-, e⟩ | ⟨-, e⟩ <;> simp [e]
  · rcases xorOutcome_cases a s with ⟨-, e⟩ | ⟨-, -, e⟩ | ⟨-, -, -, e⟩ | ⟨-, e⟩ <;> simp [e]
  · simp

/-- A completion keeps the invariant: it clears BUSY, and gives EINFO or TRAIL a value only beside an ERR that
allows it. -/
theorem complete_inv {s : State} (h : s.Inv) {o : CmdOutcome} (ho : ∀ i, o ≠ .error .none i) :
    (complete o s).Inv := by
  refine ⟨?_, complete_wf h.2.1 o, ?_, ?_⟩
  · rw [(complete_frame o s).1]; exact h.1
  · rw [State.PendingClear, (complete_done o s).1]; simp
  · cases o with
    | ok w b => simp [complete, State.OutcomeConsistent]
    | error c i =>
      have hc : c ≠ .none := fun hc => ho i (by rw [hc])
      simp [complete, raiseError, State.OutcomeConsistent, hc]

theorem hostTurn_inv {s : State} (h : s.Inv) : (hostTurn s).Inv := by
  rcases hostTurn_status_cases s with ⟨_, v, rest, -, -, -, e⟩ | ⟨_, _, _, -, -, e⟩ | ⟨-, hs⟩
  · rw [e]; exact accept_inv (s := { s with host := rest }) h v
  · rw [e]; exact h
  · exact inv_of_sameStatus h (hostTurn_maxBits s) (hostTurn_wf h.2.1) hs

/-- Taking a turn keeps the invariant. -/
theorem nextTurn_inv {s : State} (h : s.Inv) : (nextTurn s).2.Inv := by
  obtain ⟨ts, e⟩ := nextTurn_state s
  rw [e]; exact h

/-- Settles O56: whoever steps, the state it leaves meets the invariant. -/
theorem everyStepKeepsTheInvariant : Obligations.EveryStepKeepsTheInvariant := by
  intro s t hs ht
  have hn := nextTurn_inv hs
  rcases step_cases s with ⟨-, e⟩ | ⟨-, -, e⟩ | ⟨-, -, e⟩ | ⟨-, e⟩
  all_goals rw [e] at ht; cases ht
  · exact hostTurn_inv hn
  · exact complete_inv hn (outcomeOf_ne_error_none _ _)
  · exact hn
  · exact resetBlock_inv hn.1

/-- Settles O55: every buffer is a replicate of its capacity, and the status fields are clear. -/
theorem theResetStateMeetsTheInvariant : Obligations.TheResetStateMeetsTheInvariant := by
  unfold Obligations.TheResetStateMeetsTheInvariant
  refine ⟨by decide, ?_, ?_, ?_⟩ <;> simp [State.reset, Memory.wf, State.PendingClear, State.OutcomeConsistent]

/-! ### HZD and the host's hold on STATUS -/

/-- Settles O47: of the four kinds of step only a host's write while BUSY = 1 sets HZD, and only reset clears it. -/
theorem hzdIsStickyUntilReset : Obligations.HzdIsStickyUntilReset := by
  intro s t ht
  obtain ⟨ts, hts⟩ := nextTurn_state s
  rcases step_cases s with ⟨hn, e⟩ | ⟨hn, -, e⟩ | ⟨hn, -, e⟩ | ⟨hn, e⟩
  all_goals rw [e, hts] at ht; cases ht; rw [hn]
  · simp [hostTurn_hzd]
  · obtain ⟨-, hz, -⟩ := complete_frame (outcomeOf s.pcmd { s with turns := ts }) { s with turns := ts }
    simp [hz]
  · simp
  · simp

/-- Settles O50: the host's step writes these fields only where it accepts a command, and that is a write to CMD. -/
theorem theHostChangesStatusOnlyByAcceptance : Obligations.TheHostChangesStatusOnlyByAcceptance := by
  intro s t ht hturn hno
  obtain ⟨ts, hts⟩ := nextTurn_state s
  have e : step s = .next (hostTurn { s with turns := ts }) := by rw [step, hturn, hts]; rfl
  rw [e] at ht; cases ht
  rcases hostTurn_status_cases { s with turns := ts } with ⟨target, v, rest, hh, hp, hc, -⟩ | ⟨_, _, _, -, -, e⟩ | ⟨-, hs⟩
  · have : wordOffset (targetAddr target) = 8 := eq_regOffset_of_placeAt hc
    have := hno target v rest hh hp
    unfold wordOffset at *; omega
  · rw [e]; exact ⟨rfl, rfl, rfl, rfl, rfl, rfl⟩
  · obtain ⟨hpend, hdone, htrail, -, herr, heinfo, hpcmd⟩ := hs
    exact ⟨hpend, hdone, htrail, herr, heinfo, hpcmd⟩

/-! ### a command's outcome is a function of the operand strings (R24, R162) -/

theorem encodeOutcome_agree (a : Buf) {s t : State} (h : OperandsAgree s t) : encodeOutcome a s = encodeOutcome a t := by
  obtain ⟨hm, -, ht, hv⟩ := h
  rw [encodeOutcome, encodeOutcome, State.maxChars, State.maxChars, hm, ht, hv]

theorem decodeOutcome_agree (a : Buf) {s t : State} (h : OperandsAgree s t) : decodeOutcome a s = decodeOutcome a t := by
  obtain ⟨hm, hb, -⟩ := h
  obtain ⟨hl, hv⟩ := hb a
  simp only [decodeOutcome, hm, hl, hv]

theorem xorOutcome_agree (a : Buf) {s t : State} (h : OperandsAgree s t) : xorOutcome a s = xorOutcome a t := by
  obtain ⟨hm, hb, -⟩ := h
  obtain ⟨hk, hkv⟩ := hb .key
  obtain ⟨hd, hdv⟩ := hb .data
  simp only [len_key, len_data] at hk hd
  simp only [xorOutcome, hm, hk, hd, hkv, hdv]

theorem outcomeOf_agree (w : Word) {s t : State} (h : OperandsAgree s t) : outcomeOf w s = outcomeOf w t := by
  simp only [outcomeOf, encodeOutcome_agree _ h, decodeOutcome_agree _ h, xorOutcome_agree _ h]

@[simp] theorem finish_val (s : State) (c : ErrCode) (i : Word) (b : Bool) (a : Buf) :
    (s.finish c i b).val a = s.val a := by simp [State.val]

@[simp] theorem finish_textVal (s : State) (c : ErrCode) (i : Word) (b : Bool) :
    (s.finish c i b).textVal = s.textVal := rfl

theorem apply_buffer_same (a : Buf) (r : Bits) (s : State) :
    ((Writes.buffer a r).apply s).buf a = fill s.maxBits false r ∧
      ((Writes.buffer a r).apply s).len a = BitVec.ofNat 32 r.length := by simp [Writes.apply]

theorem apply_buffer_other {a c : Buf} (h : c ≠ a) (r : Bits) (s : State) :
    SameBuf c s ((Writes.buffer a r).apply s) := by
  simp [Writes.apply, SameBuf, setBuf_buf_other s _ h, setLen_len_other _ _ h]

/-- A successful command's writes are the same over the same operand strings. -/
theorem apply_agree (w : Writes) {s t : State} (h : OperandsAgree s t) : OperandsAgree (w.apply s) (w.apply t) := by
  obtain ⟨hm, hb, ht, hv⟩ := h
  cases w with
  | nothing => exact ⟨hm, hb, ht, hv⟩
  | text r =>
    refine ⟨hm, fun c => ?_, rfl, ?_⟩
    · exact hb c
    · simp [Writes.apply, State.textVal, State.maxChars, hm]
  | buffer a r =>
    refine ⟨by simpa using hm, fun c => ?_, ?_, ?_⟩
    · by_cases hc : c = a
      · subst hc
        obtain ⟨es, ls⟩ := apply_buffer_same c r s
        obtain ⟨et, lt⟩ := apply_buffer_same c r t
        simp only [State.val, es, ls, et, lt, hm, and_self]
      · obtain ⟨es, ls⟩ := apply_buffer_other hc r s
        obtain ⟨et, lt⟩ := apply_buffer_other hc r t
        rw [State.val, State.val, es, ls, et, lt]
        exact hb c
    · simpa [Writes.apply] using ht
    · simpa [Writes.apply, State.textVal] using hv

/-- Completions of one outcome write the same operand strings over the same ones. -/
theorem complete_agree (o : CmdOutcome) {s t : State} (h : OperandsAgree s t) :
    OperandsAgree (complete o s) (complete o t) := by
  cases o with
  | ok w b => simpa [complete, OperandsAgree] using apply_agree w h
  | error c i => simpa [complete, raiseError, OperandsAgree] using h

theorem complete_recorded_agree (o : CmdOutcome) (s t : State) :
    (complete o s).err = (complete o t).err ∧ (complete o s).einfo = (complete o t).einfo ∧
      (complete o s).trail = (complete o t).trail := by
  cases o <;> exact ⟨rfl, rfl, rfl⟩

/-- Settles O28: both runs have the same outcome, and its completion reads nothing but that outcome. -/
theorem outcomeDependsOnOperandStringsOnly : Obligations.OutcomeDependsOnOperandStringsOnly := by
  intro w s s' t t' _ _ h ht ht'
  rw [execWord_eq] at ht ht'
  cases ht; cases ht'
  rw [outcomeOf_agree w h]
  exact ⟨complete_agree _ h, complete_recorded_agree _ s s'⟩

/-! ### the registers at the host port (R27 to R33) -/

/-- The length register of a bit buffer (R12, R23). -/
def lenReg : Buf → Reg
  | .key => .klen
  | .data => .dlen
  | .res => .rlen

theorem hostWrite_lenReg {s : State} {addr : Addr} (a : Buf) (h : addr.toNat / 4 * 4 = regOffset (lenReg a))
    (v : Word) (hp : s.pend = false) : hostWrite addr v s = s.setLen a v := by
  rw [hostWrite_idle addr v hp, writeIdle, place_reg s (lenReg a) h]
  cases a <;> rfl

theorem hostRead_lenReg {s : State} {addr : Addr} (a : Buf) (h : addr.toNat / 4 * 4 = regOffset (lenReg a))
    (hp : s.pend = false) : hostRead addr s = (s.len a, s) := by
  rw [hostRead, place_reg s (lenReg a) h]
  cases a <;> exact readOperand_idle _ hp

theorem hostWrite_tlen {s : State} {addr : Addr} (h : addr.toNat / 4 * 4 = regOffset .tlen) (v : Word)
    (hp : s.pend = false) : hostWrite addr v s = { s with tlen := v } := by
  rw [hostWrite_idle addr v hp, writeIdle, place_reg s .tlen h]

theorem hostRead_tlen {s : State} {addr : Addr} (h : addr.toNat / 4 * 4 = regOffset .tlen) (hp : s.pend = false) :
    hostRead addr s = (s.tlen, s) := by
  rw [hostRead, place_reg s .tlen h]
  exact readOperand_idle _ hp

theorem hostRead_id {s : State} {addr : Addr} (h : addr.toNat / 4 * 4 = regOffset .id) :
    hostRead addr s = (Config.idWord, s) := by rw [hostRead, place_reg s .id h]; rfl

theorem hostRead_cap {s : State} {addr : Addr} (h : addr.toNat / 4 * 4 = regOffset .cap) :
    hostRead addr s = (BitVec.ofNat 32 s.maxBits, s) := by rw [hostRead, place_reg s .cap h]; rfl

theorem hostRead_cmd {s : State} {addr : Addr} (h : addr.toNat / 4 * 4 = regOffset .cmd) :
    hostRead addr s = (0#32, s) := by rw [hostRead, place_reg s .cmd h]; rfl

theorem hostRead_einfo {s : State} {addr : Addr} (h : addr.toNat / 4 * 4 = regOffset .einfo) :
    hostRead addr s = (s.einfo, s) := by rw [hostRead, place_reg s .einfo h]; rfl

/-- The registers the host only reads take no write while BUSY = 0 (R27, R28, R29, R32). -/
theorem hostWrite_readOnly {s : State} {addr : Addr} {r : Reg} (hr : r = .id ∨ r = .cap ∨ r = .status ∨ r = .einfo)
    (h : addr.toNat / 4 * 4 = regOffset r) (v : Word) (hp : s.pend = false) : hostWrite addr v s = s := by
  rw [hostWrite_idle addr v hp, writeIdle, place_reg s r h]
  rcases hr with rfl | rfl | rfl | rfl <;> rfl

/-- STATUS bit by bit: BUSY, DONE, TRAIL, HZD, four reserved bits, ERR, and 0 from bit 12 up (R29). -/
theorem status_getLsbD (s : State) (i : Nat) :
    s.status.getLsbD i =
      (match i with
        | 0 => s.pend
        | 1 => s.done
        | 2 => s.trail
        | 3 => s.hzd
        | 4 | 5 | 6 | 7 => false
        | j + 8 => (errNumber s.err).getLsbD j) := by
  have h : s.status = (0#20 ++ errNumber s.err ++ 0#4 ++ BitVec.ofBool s.hzd ++ BitVec.ofBool s.trail ++
      BitVec.ofBool s.done ++ BitVec.ofBool s.pend : BitVec (20 + 4 + 4 + 1 + 1 + 1 + 1)) := rfl
  rw [h]
  simp only [BitVec.getLsbD_append]
  match i with
  | 0 | 1 | 2 | 3 | 4 | 5 | 6 | 7 => simp
  | j + 8 =>
    by_cases hj : j < 4
    · simp [hj]
    · simp [hj, BitVec.getLsbD_of_ge _ _ (Nat.le_of_not_lt hj)]

theorem status_err (s : State) : s.status.extractLsb' 8 4 = errNumber s.err := by
  apply BitVec.eq_of_getLsbD_eq
  intro i hi
  rw [BitVec.getLsbD_extractLsb', Nat.add_comm 8 i, status_getLsbD]
  simp [hi]

theorem status_reserved_low (s : State) : s.status.extractLsb' 4 4 = 0#4 := by
  apply BitVec.eq_of_getLsbD_eq
  intro i hi
  rw [BitVec.getLsbD_extractLsb', status_getLsbD]
  match i, hi with
  | 0, _ | 1, _ | 2, _ | 3, _ => simp

theorem status_reserved_high (s : State) : s.status.extractLsb' 12 20 = 0#20 := by
  apply BitVec.eq_of_getLsbD_eq
  intro i hi
  rw [BitVec.getLsbD_extractLsb', show 12 + i = i + 4 + 8 by omega, status_getLsbD]
  simp

/-- Settles O33: the three bit buffers' length registers by one rule over the buffer, and TLEN. -/
theorem lengthRegistersStoreAnyWord : Obligations.LengthRegistersStoreAnyWord := by
  intro s v hp
  have stores : ∀ (a : Buf) (addr : Addr), addr.toNat / 4 * 4 = regOffset (lenReg a) →
      hostWrite addr v s = s.setLen a v ∧ (hostRead addr (s.setLen a v)).1 = v := by
    intro a addr h
    exact ⟨hostWrite_lenReg a h v hp, by rw [hostRead_lenReg a h (by simpa using hp)]; simp⟩
  exact ⟨stores .key _ rfl, stores .data _ rfl, stores .res _ rfl, hostWrite_tlen rfl v hp,
    by rw [hostRead_tlen (s := { s with tlen := v }) rfl hp]⟩

/-- Settles O38: a legal MAXBITS fits CAP's 32 bits. -/
theorem idAndCapReadTheirConstants : Obligations.IdAndCapReadTheirConstants := by
  intro s v hs
  obtain ⟨⟨-, hmax, -⟩, -⟩ := hs
  refine ⟨hostRead_id rfl, ?_, ?_, ?_⟩
  · rw [hostRead_cap rfl]
    exact ⟨by rw [BitVec.toNat_ofNat]; omega, rfl⟩
  · intro hp
    exact ⟨hostWrite_readOnly (r := .id) (by decide) rfl v hp, hostWrite_readOnly (r := .cap) (by decide) rfl v hp⟩
  · intro hp
    exact ⟨hostWrite_busy _ v hp, hostWrite_busy _ v hp⟩

/-- Settles O39: a read of STATUS is `State.status`, whose bits are known one by one. -/
theorem statusReadsItsFields : Obligations.StatusReadsItsFields := by
  intro s v
  have hread : hostRead 0x000C#16 s = (s.status, s) := hostRead_status s
  rw [hread]
  exact ⟨rfl, status_busy s, status_getLsbD s 1, status_getLsbD s 2, status_getLsbD s 3, status_reserved_low s,
    (status_err s).trans (by cases s.err <;> rfl), status_reserved_high s,
    hostWrite_readOnly (r := .status) (by decide) rfl v, hostWrite_busy _ v⟩

/-- Settles O40: EINFO and CMD read without effect, and EINFO is one of the registers no idle write reaches. -/
theorem einfoReadsItsValueAndCmdReadsZero : Obligations.EinfoReadsItsValueAndCmdReadsZero := by
  intro s v
  exact ⟨hostRead_einfo rfl, hostRead_cmd rfl, hostWrite_readOnly (r := .einfo) (by decide) rfl v,
    hostWrite_busy _ v⟩

/-- Settles O54: the reset state's fields by evaluation, ID and CAP by the rules of their reads. -/
theorem theResetStateHoldsTheSpecsValues : Obligations.TheResetStateHoldsTheSpecsValues := by
  refine ⟨rfl, rfl, rfl, rfl, by decide, rfl, rfl, ?_, ?_⟩
  · rw [hostRead_id rfl]; rfl
  · rw [hostRead_cap rfl]

end Sys2Proof.Machine

/-! The host port (20_memory.md): what a read or write at each kind of address returns and stores, what a read leaves
alone, and how the host's accesses stand to a pending command. -/

namespace Sys2Proof.Machine

/-! ### bits 1:0 of an address (R59) -/

/-- The mask 0xFFFC clears bits 1:0, which the word's number does not show. -/
theorem wordOffset_mask (addr : Addr) : wordOffset (addr &&& 0xFFFC#16) = wordOffset addr := by
  have hlt : addr.toNat / 2 ^ 2 < 2 ^ 14 := by omega
  have h : (addr.toNat &&& 0xFFFC) / 2 ^ 2 = addr.toNat / 2 ^ 2 := by
    rw [Nat.and_div_two_pow]
    exact Nat.and_two_pow_sub_one_of_lt_two_pow hlt
  exact congrArg (· * 4) h

theorem place_mask (s : State) (addr : Addr) : s.place (addr &&& 0xFFFC#16) = s.place addr := by
  rw [State.place, State.place, wordOffset_mask]

/-- A read depends on its address only through the place it reaches. -/
theorem hostRead_congr_place {s : State} {a b : Addr} (h : s.place a = s.place b) : hostRead a s = hostRead b s := by
  rw [hostRead, hostRead, h]

/-- A write depends on its address only through the place it reaches. -/
theorem hostWrite_congr_place {s : State} {a b : Addr} (h : s.place a = s.place b) (v : Word) :
    hostWrite a v s = hostWrite b v s := by
  rw [hostWrite, hostWrite, writeIdle, writeIdle, h]

/-- Settles O37: both addresses reach the same place, and an access sees no more of its address. -/
theorem theLowAddressBitsAreNotDecoded : Obligations.TheLowAddressBitsAreNotDecoded := by
  intro s addr v
  have h := (place_mask s addr).symm
  exact ⟨hostRead_congr_place h, hostWrite_congr_place h v⟩

/-! ### reserved addresses (R56) -/

theorem place_reserved {s : State} {addr : Addr} (h : ReservedOffset s.maxBits (addr.toNat / 4 * 4)) :
    s.place addr = .reserved :=
  placeAt_reserved (Nat.mul_mod_left _ 4) h

theorem hostWrite_reserved {s : State} {addr : Addr} (h : s.place addr = .reserved) (v : Word)
    (hp : s.pend = false) : hostWrite addr v s = s := by
  rw [hostWrite_idle addr v hp, writeIdle, h]

/-- Settles O36: the address map reaches nothing there, and a busy block drops every write. -/
theorem reservedAddressesReadZero : Obligations.ReservedAddressesReadZero := by
  intro s addr v h
  have hr := place_reserved h
  exact ⟨hostRead_reserved hr, hostWrite_reserved hr v, hostWrite_busy addr v⟩

/-! ### window words of the bit buffers while idle (R54, R57, R58) -/

/-- A window word below MAXWORDS lies within its buffer. -/
theorem window_within {s : State} (h : Memory.wf s) (a : Buf) {w : Nat} (hw : w < s.maxWords) :
    32 * w + 32 ≤ (s.buf a).length := by
  rw [buf_length h a]
  unfold State.maxWords at hw
  omega

theorem hostRead_window_idle {s : State} {addr : Addr} {a : Buf} {w : Nat} (h : s.place addr = .window a w)
    (hp : s.pend = false) : hostRead addr s = (packWord (s.buf a) w, s) := by
  rw [hostRead_window h, readOperand_idle _ hp]

theorem hostWrite_window {s : State} {addr : Addr} {a : Buf} {w : Nat} (h : s.place addr = .window a w) (v : Word)
    (hp : s.pend = false) : hostWrite addr v s = s.setBuf a (putWord (s.buf a) w v) := by
  rw [hostWrite_idle addr v hp, writeIdle, h]

@[simp] theorem setBuf_place (s : State) (a : Buf) (b : Bits) (addr : Addr) :
    (s.setBuf a b).place addr = s.place addr := by
  rw [State.place, State.place, setBuf_maxBits]

/-- Settles O34: the write is `putWord` on the one buffer, and packing that word again gives back v. -/
theorem aWindowWriteStoresItsBits : Obligations.AWindowWriteStoresItsBits := by
  intro a s addr w v hs hp hw ha
  obtain ⟨⟨-, hmax, -⟩, hwf, -⟩ := hs
  have hpl : s.place addr = .window a w := place_window hmax hw (by cases a <;> exact ha)
  have hin := window_within hwf a hw
  rw [hostWrite_window hpl v hp, setBuf_buf_same]
  refine ⟨fun k hk => bitAt_putWord_in hin v hk, fun p => bitAt_putWord_out hin v, rfl, ?_⟩
  rw [hostRead_window_idle (by rw [setBuf_place, hpl]) (by rw [setBuf_pend, hp]), setBuf_buf_same,
    packWord_putWord hin]

/-! ### entries of TEXT while idle (R26, R57, R58) -/

theorem hostRead_text_idle {s : State} {addr : Addr} {j : Nat} (h : s.place addr = .text j) (hp : s.pend = false) :
    hostRead addr s = (s.text.getD j 0#32, s) := by
  rw [hostRead_text h, readOperand_idle _ hp]

theorem hostWrite_text {s : State} {addr : Addr} {j : Nat} (h : s.place addr = .text j) (v : Word)
    (hp : s.pend = false) : hostWrite addr v s = { s with text := s.text.set j v } := by
  rw [hostWrite_idle addr v hp, writeIdle, h]

/-- Settles O35: the write sets one entry of the list, and that entry reads back. -/
theorem aTextWriteStoresItsCodePoint : Obligations.ATextWriteStoresItsCodePoint := by
  intro s addr j v hs hp hj ha
  obtain ⟨⟨-, hmax, -⟩, ⟨-, -, -, htext⟩, -⟩ := hs
  have hpl : s.place addr = .text j := place_text hmax hj ha
  have hin : j < s.text.length := htext ▸ hj
  have hsame : (s.text.set j v).getD j 0#32 = v := by simp [List.getD_eq_getElem?_getD, hin]
  rw [hostWrite_text hpl v hp]
  refine ⟨hsame, fun i hi => ?_, rfl, ?_⟩
  · rw [List.getD_eq_getElem?_getD, List.getElem?_set_ne hi.symm, ← List.getD_eq_getElem?_getD]
  · rw [hostRead_text_idle (s := { s with text := s.text.set j v }) hpl hp, hsame]

/-- Settles O41: an idle read packs the stored positions of its window word, or returns its TEXT entry. -/
theorem idleReadsReturnTheStoredWords : Obligations.IdleReadsReturnTheStoredWords := by
  intro s addr hs hp
  obtain ⟨⟨-, hmax, -⟩, hwf, -⟩ := hs
  constructor
  · intro a w hw ha
    have hpl : s.place addr = .window a w := place_window hmax hw (by cases a <;> exact ha)
    rw [hostRead_window_idle hpl hp]
    exact ⟨rfl, fun k hk => packWord_getLsbD (window_within hwf a hw) hk⟩
  · intro j hj ha
    exact hostRead_text_idle (place_text hmax hj ha) hp

/-! ### what a read leaves alone (R57, R61) -/

theorem sameBlock_refl (s : State) : SameBlock s s :=
  ⟨rfl, ⟨⟨rfl, rfl⟩, ⟨rfl, rfl⟩, ⟨rfl, rfl⟩, rfl, rfl⟩, sameStatus_refl s⟩

/-- Settles O43: a read changes at most the count of draws. -/
theorem aReadChangesNoStateOfTheBlock : Obligations.AReadChangesNoStateOfTheBlock := by
  intro s addr
  rcases hostRead_state addr s with e | ⟨-, e⟩ <;> rw [e]
  · exact ⟨sameBlock_refl s, rfl, rfl, rfl⟩
  · exact ⟨sameBlock_refl s, rfl, rfl, rfl⟩

/-! ### the step by whose turn it is (R9, R64) -/

theorem step_of_hostNext {s : State} {ts : List Turn} (h : s.HostNext ts) :
    step s = .next (hostTurn { s with turns := ts }) := by
  rw [step, nextTurn_host h]
  rfl

theorem step_of_wr {s : State} {ts : List Turn} {target : Target} {v : Word} {rest : List HostStmt}
    (h : s.HostNext ts) (hh : s.host = .wr target v :: rest) :
    step s = .next (hostWrite (targetAddr target) v { s with turns := ts, host := rest }) := by
  rw [step_of_hostNext h, hostTurn_wr (s := { s with turns := ts }) hh]

theorem step_of_host_turn {s : State} (h : (nextTurn s).1 = .host) :
    ∃ ts, step s = .next (hostTurn { s with turns := ts }) := by
  obtain ⟨ts, hts⟩ := nextTurn_state s
  exact ⟨ts, by rw [step, h, hts]; rfl⟩

theorem step_of_engineNext {s : State} {ts : List Turn} (h : s.EngineNext ts) (hp : s.pend = true) :
    step s = execWord s.pcmd { s with turns := ts } := by
  rw [step, nextTurn_engine h]
  exact if_pos hp

@[simp] theorem complete_maxBits (o : CmdOutcome) (s : State) : (complete o s).maxBits = s.maxBits :=
  (complete_frame o s).1

/-- Settles O10: whoever steps, the step answers a state, and none of the four kinds of step writes MAXBITS. -/
theorem everyStepAnswersNext : Obligations.EveryStepAnswersNext := by
  intro s
  obtain ⟨ts, hts⟩ := nextTurn_state s
  rcases step_cases s with ⟨-, e⟩ | ⟨-, -, e⟩ | ⟨-, -, e⟩ | ⟨-, e⟩
  all_goals refine ⟨_, e, ?_⟩; rw [hts]
  · rw [hostTurn_maxBits]
  · rw [complete_maxBits]
  · rw [resetBlock_maxBits]

/-! ### the host and a pending command (R65, R67, R68) -/

theorem hostWrite_cmd {s : State} {addr : Addr} (h : addr.toNat / 4 * 4 = regOffset .cmd) (v : Word)
    (hp : s.pend = false) : hostWrite addr v s = s.accept v := by
  rw [hostWrite_idle addr v hp, writeIdle, place_reg s .cmd h]

/-- Settles O48: a write while BUSY = 1 would have left HZD 1, so the write was accepted. -/
theorem aWriteToCmdThatLeavesHzdClearWasAccepted : Obligations.AWriteToCmdThatLeavesHzdClearWasAccepted := by
  intro s t ts v rest hn hh ht hz
  rw [step_of_wr hn hh] at ht
  cases ht
  rcases Bool.eq_false_or_eq_true s.pend with hp | hp
  · rw [hostWrite_busy (s := { s with turns := ts, host := rest }) _ v hp] at hz
    cases hz
  · rw [hostWrite_cmd (s := { s with turns := ts, host := rest }) (addr := targetAddr (.reg .cmd)) rfl v hp]
    exact ⟨rfl, rfl, rfl, hp⟩

/-- The host's step writes no operand and neither MAXBITS, PEND nor PCMD while a command is pending: its writes are
dropped and its reads write nothing. -/
theorem hostTurn_while_pending {s : State} (hp : s.pend = true) :
    (hostTurn s).pend = true ∧ (hostTurn s).pcmd = s.pcmd ∧ (hostTurn s).maxBits = s.maxBits ∧
      SameOperands s (hostTurn s) := by
  obtain ⟨-, hops, -⟩ := sameBlock_refl s
  rcases hostTurn_cases s with e | ⟨target, v, rest, -, e⟩ | ⟨target, rest, -, e⟩ | ⟨rest, -, e⟩
  · rw [e]; exact ⟨hp, rfl, rfl, hops⟩
  · rw [e, hostWrite_busy (s := { s with host := rest }) _ v hp]; exact ⟨hp, rfl, rfl, hops⟩
  · obtain ⟨hm, hr, hpend, -, -, -, -, -, hpcmd⟩ :=
      readAndLog_sameBlock (targetAddr target) { s with host := rest }
    rw [e]; exact ⟨hpend.trans hp, hpcmd, hm, hr⟩
  · rw [e]; exact ⟨hp, rfl, rfl, hops⟩

/-- Settles O51: taking the turn changes only the list of turns, and the host's step keeps what is asked. -/
theorem operandsAreFixedWhileACommandIsPending : Obligations.OperandsAreFixedWhileACommandIsPending := by
  intro s t ht hp hturn
  obtain ⟨ts, e⟩ := step_of_host_turn hturn
  rw [e] at ht; cases ht
  exact hostTurn_while_pending (s := { s with turns := ts }) hp

/-! ### a write racing a completion (R64, R165) -/

/-- `s` with another host program, other turns and another HZD: what execution neither reads nor writes. -/
def State.around (s : State) (host : List HostStmt) (turns : List Turn) (hzd : Bool) : State :=
  { s with host := host, turns := turns, hzd := hzd }

theorem around_operandsAgree (s : State) (hs : List HostStmt) (ts : List Turn) (z : Bool) :
    OperandsAgree (s.around hs ts z) s :=
  ⟨rfl, fun a => by cases a <;> exact ⟨rfl, rfl⟩, rfl, rfl⟩

theorem complete_around (o : CmdOutcome) (s : State) (hs : List HostStmt) (ts : List Turn) (z : Bool) :
    complete o (s.around hs ts z) = (complete o s).around hs ts z := by
  cases o with
  | error c i => rfl
  | ok w b =>
    cases w with
    | nothing => rfl
    | text t => rfl
    | buffer a r => cases a <;> rfl

/-- Executing a word commutes with replacing the host's program, the turns and HZD. -/
theorem execWord_around {w : Word} {s e : State} (h : execWord w s = .next e) (hs : List HostStmt) (ts : List Turn)
    (z : Bool) : execWord w (s.around hs ts z) = .next (e.around hs ts z) := by
  rw [execWord_eq] at h ⊢
  cases h
  rw [outcomeOf_agree w (around_operandsAgree s hs ts z), complete_around]

/-- An execution leaves nothing pending, and the host, the turns and HZD as they were. -/
theorem execWord_leaves {w : Word} {s e : State} (h : execWord w s = .next e) :
    e.pend = false ∧ e.host = s.host ∧ e.turns = s.turns ∧ e.hzd = s.hzd := by
  rw [execWord_eq] at h
  cases h
  obtain ⟨-, hz, -, hh, -, ht, -⟩ := complete_frame (outcomeOf w s) s
  obtain ⟨hp, -⟩ := complete_done (outcomeOf w s) s
  exact ⟨hp, hh, ht, hz⟩

/-- The completion comes first: the write finds BUSY = 0 and is applied. -/
theorem run_engine_then_klen_write {s e : State} {v : Word} (hp : s.pend = true)
    (hh : s.host = [.wr (.reg .klen) v]) (he : execWord s.pcmd { s with turns := [] } = .next e) :
    Sys2Proof.core.run 2 { s with turns := [.engine, .host] } = .next { e with klen := v, host := [] } := by
  obtain ⟨hpe, hhe, (hte : e.turns = []), hze⟩ := execWord_leaves he
  have engine : step { s with turns := [.engine, .host] } = .next { e with turns := [.host] } := by
    rw [step_of_engineNext (s := { s with turns := [.engine, .host] }) (.inl rfl) hp]
    refine (execWord_around he s.host [.host] s.hzd).trans ?_
    rw [State.around, ← hhe, ← hze]
  have host : step { e with turns := [.host] } = .next { e with klen := v, host := [] } := by
    rw [step_of_wr (s := { e with turns := [.host] }) (.inl rfl) (hhe.trans hh),
      hostWrite_lenReg (s := { e with turns := [], host := [] }) .key (by decide) v hpe, hte]
    rfl
  rw [core_run_succ 1 engine, core_run_succ 0 host, core_run_zero]

/-- The write comes first: it finds BUSY = 1 and is dropped, and the command runs on the operands it was issued with. -/
theorem run_klen_write_then_engine {s e : State} {v : Word} (hp : s.pend = true)
    (hh : s.host = [.wr (.reg .klen) v]) (he : execWord s.pcmd { s with turns := [] } = .next e) :
    Sys2Proof.core.run 2 { s with turns := [.host, .engine] } = .next { e with hzd := true, host := [] } := by
  obtain ⟨-, -, (hte : e.turns = []), -⟩ := execWord_leaves he
  have host : step { s with turns := [.host, .engine] } =
      .next { s with hzd := true, host := [], turns := [.engine] } := by
    rw [step_of_wr (s := { s with turns := [.host, .engine] }) (.inl rfl) hh,
      hostWrite_busy (s := { s with turns := [.engine], host := [] }) _ v hp]
  have engine : step { s with hzd := true, host := [], turns := [.engine] } =
      .next { e with hzd := true, host := [] } := by
    rw [step_of_engineNext (s := { s with hzd := true, host := [], turns := [.engine] }) (.inl rfl) hp]
    refine (execWord_around he [] [] true).trans ?_
    rw [State.around, hte]
  rw [core_run_succ 1 host, core_run_succ 0 engine, core_run_zero]

/-- Settles O52: the two orders of the race, one lemma each. -/
theorem aWriteRacingTheEngineHasBothOutcomes : Obligations.AWriteRacingTheEngineHasBothOutcomes := by
  intro s e v hp hh he
  exact ⟨run_engine_then_klen_write hp hh he, run_klen_write_then_engine hp hh he⟩

end Sys2Proof.Machine

/-! Encoding (30_encoding.md): the decoder against the encoder, the table and the fields; the assembler; and the host's
statements. -/

namespace Sys2Proof.Machine

/-! ### command words (R81, R85, R86) -/

/-- Only a command's own word decodes to it: a word is its fields, and decoding fixes all three. -/
theorem eq_encode_of_decode {w : Word} {i : Instr} (h : decode w = .cmd i) : w = encode i := by
  rcases decode_cases w with ⟨j, hj, hrsv, ha, hop⟩ | ⟨why, hill, -⟩
  · rw [hj] at h
    cases h
    calc w = (fieldsOf w).rsv ++ (fieldsOf w).a ++ (fieldsOf w).op := word_eq_fields w
      _ = encode i := by rw [hrsv, ha, hop]; rfl
  · rw [hill] at h
    cases h

theorem decode_eq_cmd_iff {w : Word} {i : Instr} : decode w = .cmd i ↔ w = encode i :=
  ⟨eq_encode_of_decode, fun h => h ▸ decode_encode i⟩

/-- Settles O4: `decode_encode` one way, the fields of a decoded word the other. -/
theorem decodeAndEncodeAgree : Obligations.DecodeAndEncodeAgree := fun _ _ => decode_eq_cmd_iff

/-- The table's row for each command, the fields of its word and its decoding (R85, R86). -/
theorem encoding_statement (i : Instr) : Laws.Encoding.Statement i := by
  cases i
  exacts [Laws.Encoding.nop, Laws.Encoding.encodeKey, Laws.Encoding.encodeData, Laws.Encoding.encodeRes,
    Laws.Encoding.decodeKey, Laws.Encoding.decodeData, Laws.Encoding.decodeRes, Laws.Encoding.xorKey,
    Laws.Encoding.xorData, Laws.Encoding.xorRes]

theorem encode_mem_legalTable (i : Instr) : (encode i, i) ∈ legalTable := by
  obtain ⟨hrow, -, -⟩ := encoding_statement i
  exact hrow

theorem encode_wellFormed (i : Instr) : (fieldsOf (encode i)).WellFormed := by
  obtain ⟨-, hwf, -⟩ := encoding_statement i
  exact hwf

/-- The rows of the table are the commands' encodings. -/
theorem mem_legalTable_iff {w : Word} {i : Instr} : (w, i) ∈ legalTable ↔ w = encode i := by
  have rows : ∀ row ∈ legalTable, row.1 = encode row.2 := by decide
  exact ⟨rows (w, i), fun h => h ▸ encode_mem_legalTable i⟩

/-- A word no command is decoded from is handed on as illegal. -/
theorem decode_illegal_of_no_cmd {w : Word} (h : ¬ ∃ i, decode w = .cmd i) : ∃ why, decode w = .illegal why w := by
  rcases decode_cases w with ⟨i, hi, -⟩ | ⟨why, hill, -⟩
  · exact absurd ⟨i, hi⟩ h
  · exact ⟨why, hill⟩

/-- Settles O2: both the decoder's commands and the table's rows are the encodings. -/
theorem legalWordsAreTheTenOfTheTable : Obligations.LegalWordsAreTheTenOfTheTable := by
  intro w
  have same : ∀ i, decode w = .cmd i ↔ (w, i) ∈ legalTable := fun i =>
    decode_eq_cmd_iff.trans mem_legalTable_iff.symm
  exact ⟨same, fun hno => decode_illegal_of_no_cmd fun ⟨i, hi⟩ => hno i ((same i).mp hi)⟩

/-- A word is a command exactly when its fields are legal (R85). -/
theorem exists_cmd_iff_wellFormed {w : Word} : (∃ i, decode w = .cmd i) ↔ (fieldsOf w).WellFormed := by
  constructor
  · rintro ⟨i, hi⟩
    rw [eq_encode_of_decode hi]
    exact encode_wellFormed i
  · intro hwf
    rcases decode_cases w with ⟨i, hi, -⟩ | ⟨-, -, hill⟩
    · exact ⟨i, hi⟩
    · exact absurd hwf hill

/-- Executing an illegal word records ILLEGAL_CMD, whatever the state (R107). -/
theorem execWord_illegal {w : Word} {why : IllegalReason} (h : decode w = .illegal why w) (s : State) :
    execWord w s = .next (raiseError .illegalCmd w s) := by
  rw [execWord, h]
  rfl

/-- Settles O3: legality is `Fields.WellFormed`, and the error is recorded by `raiseError`. -/
theorem legalityIsDecidedByTheFields : Obligations.LegalityIsDecidedByTheFields := by
  intro w
  refine ⟨exists_cmd_iff_wellFormed, fun hno s => ?_⟩
  obtain ⟨why, hill⟩ := decode_illegal_of_no_cmd hno
  exact ⟨_, execWord_illegal hill s, raiseError_recorded .illegalCmd w s⟩

/-- Settles O1: four words are encodings, and the other four are refused by evaluation. -/
theorem sampleCommandWordsDecode : Obligations.SampleCommandWordsDecode := by
  refine ⟨decode_encode .nop, decode_encode .encodeData, decode_encode .decodeRes, decode_encode .xorKey, ?_⟩
  decide

/-! ### tokens of a line (R90) -/

theorem splitBlanks_of_no_blank {l : List Char} (h : ' ' ∉ l) : splitBlanks l = [l] := by
  induction l with
  | nil => rfl
  | cons c l ih =>
    obtain ⟨hc, hl⟩ := List.ne_and_not_mem_of_not_mem_cons h
    rw [splitBlanks, if_neg (Ne.symm hc), ih hl]

theorem splitBlanks_append_blank {m : List Char} (h : ' ' ∉ m) (l : List Char) :
    splitBlanks (m ++ ' ' :: l) = m :: splitBlanks l := by
  induction m with
  | nil => rfl
  | cons c m ih =>
    obtain ⟨hc, hm⟩ := List.ne_and_not_mem_of_not_mem_cons h
    rw [List.cons_append, splitBlanks, if_neg (Ne.symm hc), ih hm]

/-- Two words with one blank between them are two tokens. -/
theorem tokensOf_two {m t : List Char} (hm : ' ' ∉ m.map Char.toUpper) (ht : ' ' ∉ t.map Char.toUpper)
    (hm0 : m ≠ []) (ht0 : t ≠ []) :
    tokensOf (m ++ ' ' :: t) = [m.map Char.toUpper, t.map Char.toUpper] := by
  have blank : Char.toUpper ' ' = ' ' := by decide
  rw [tokensOf, List.map_append, List.map_cons, blank, splitBlanks_append_blank hm, splitBlanks_of_no_blank ht]
  simp [hm0, ht0]

/-- The assembler sees a line in capitals only. -/
theorem assemble_congr_capitals {l l' : List Char} (h : l.map Char.toUpper = l'.map Char.toUpper) :
    assemble l = assemble l' := by
  rw [assemble, assemble, tokensOf, tokensOf, h]

theorem assemble_commandText (i : Instr) : assemble (commandText i) = some (encode i) := by cases i <;> decide

theorem commandText_lower_capitals (i : Instr) :
    ((commandText i).map Char.toLower).map Char.toUpper = (commandText i).map Char.toUpper := by
  cases i <;> decide

/-- Settles O5: the ten texts by evaluation, and lower case has the same capitals. -/
theorem commandTextAssemblesToItsWord : Obligations.CommandTextAssemblesToItsWord := fun i =>
  ⟨assemble_commandText i, (assemble_congr_capitals (commandText_lower_capitals i)).trans (assemble_commandText i)⟩

/-! ### eight hexadecimal digits (R90) -/

theorem hexValue_digit {d : Nat} (h : d < 16) : hexValue (hexDigits.getD d '0') = some d := by
  revert d
  decide

/-- A digit is its own capital and no blank. -/
theorem digit_toUpper {d : Nat} (h : d < 16) :
    (hexDigits.getD d '0').toUpper = hexDigits.getD d '0' ∧ hexDigits.getD d '0' ≠ ' ' := by
  revert d
  decide

/-- The last `k` hexadecimal digits of `v`, read after the value `n`. -/
theorem hexNumber_digits (v k n : Nat) :
    hexNumber n ((List.range k).map fun j => hexDigits.getD (v / 16 ^ (k - 1 - j) % 16) '0') =
      some (n * 16 ^ k + v % 16 ^ k) := by
  induction k generalizing n with
  | zero => simp [hexNumber, Nat.mod_one]
  | succ k ih =>
    have value : (16 * n + v / 16 ^ k % 16) * 16 ^ k + v % 16 ^ k = n * 16 ^ (k + 1) + v % 16 ^ (k + 1) := by
      rw [Nat.mod_pow_succ]
      ring
    rw [List.range_succ_eq_map, List.map_cons, List.map_map, hexNumber, Nat.sub_zero, Nat.add_sub_cancel,
      hexValue_digit (Nat.mod_lt _ (by decide)), ← value, ← ih]
    simp only [Function.comp_def, Nat.succ_eq_add_one, Nat.sub_sub, Nat.add_comm 1]

theorem hexNumber_hexText (w : Word) : hexNumber 0 (hexText w) = some w.toNat := by
  have lt : w.toNat < 16 ^ 8 := w.isLt
  have h := hexNumber_digits w.toNat 8 0
  rwa [Nat.zero_mul, Nat.zero_add, Nat.mod_eq_of_lt lt] at h

@[simp] theorem hexText_length (w : Word) : (hexText w).length = 8 := by simp [hexText]

theorem mem_hexText {w : Word} {c : Char} (h : c ∈ hexText w) : c.toUpper = c ∧ c ≠ ' ' := by
  obtain ⟨k, -, rfl⟩ := List.mem_map.mp h
  exact digit_toUpper (Nat.mod_lt _ (by decide))

theorem hexText_capitals (w : Word) : (hexText w).map Char.toUpper = hexText w :=
  (List.map_congr_left fun _ hc => (mem_hexText hc).1).trans (List.map_id _)

theorem tokensOf_dotCmdText (w : Word) : tokensOf (dotCmdText w) = [['.', 'C', 'M', 'D'], '0' :: 'X' :: hexText w] := by
  have operand : ('0' :: 'x' :: hexText w).map Char.toUpper = '0' :: 'X' :: hexText w := by
    rw [List.map_cons, List.map_cons, hexText_capitals]
    rfl
  have noBlank : ' ' ∉ '0' :: 'X' :: hexText w := by
    have : ' ' ∉ hexText w := fun h => (mem_hexText h).2 rfl
    simpa using this
  have tokens := tokensOf_two (m := ['.', 'c', 'm', 'd']) (by decide) (operand ▸ noBlank) (by simp) (by simp)
  rw [operand] at tokens
  exact tokens

theorem dotCmdOperand_hexText (w : Word) : dotCmdOperand ('0' :: 'X' :: hexText w) = some w := by
  rw [dotCmdOperand, if_pos (hexText_length w), hexNumber_hexText, Option.map_some, BitVec.ofNat_toNat,
    BitVec.setWidth_eq]

/-- Settles O6: the line has the two tokens, and the eight digits are read back to the word. -/
theorem dotCmdAssemblesToItsWord : Obligations.DotCmdAssemblesToItsWord := by
  intro w
  rw [assemble, tokensOf_dotCmdText]
  exact dotCmdOperand_hexText w

/-! ### the host's statements (R91, R92) -/

/-- A read neither looks at the host's program or the turns nor changes them. -/
theorem hostRead_with_host_turns (addr : Addr) (s : State) (hs : List HostStmt) (ts : List Turn) :
    hostRead addr { s with host := hs, turns := ts } =
      ((hostRead addr s).1, { (hostRead addr s).2 with host := hs, turns := ts }) := by
  have operand : ∀ v, readOperand v { s with host := hs, turns := ts } =
      ((readOperand v s).1, { (readOperand v s).2 with host := hs, turns := ts }) := by
    intro v
    rcases Bool.eq_false_or_eq_true s.pend with hp | hp
    · rw [readOperand_busy v hp, readOperand_busy (s := { s with host := hs, turns := ts }) v hp]
    · rw [readOperand_idle v hp, readOperand_idle (s := { s with host := hs, turns := ts }) v hp]
  have samePlace : ({ s with host := hs, turns := ts } : State).place addr = s.place addr := rfl
  rw [hostRead, hostRead, samePlace]
  split
  all_goals first | exact operand _ | rfl

theorem hostTurn_rd {s : State} {target : Target} {rest : List HostStmt} (h : s.host = .rd target :: rest) :
    hostTurn s = readAndLog (targetAddr target) { s with host := rest } := by rw [hostTurn, h]; rfl

/-- Settles O44: the read sees the block as it was before the statement and the turn were taken. -/
theorem rdReturnsTheWordRead : Obligations.RdReturnsTheWordRead := by
  intro s ts target rest hn hh
  have read := hostRead_with_host_turns (targetAddr target) s rest ts
  have sameLog : (hostRead (targetAddr target) s).2.returned = s.returned := by
    rcases hostRead_state (targetAddr target) s with e | ⟨-, e⟩ <;> rw [e]
  rw [step_of_hostNext hn, hostTurn_rd (s := { s with turns := ts }) hh, readAndLog, read, State.logRead, sameLog]

theorem hostTurn_poll {s : State} {rest : List HostStmt} (h : s.host = .poll :: rest) :
    hostTurn s = { s with
      returned := s.status :: s.returned
      host := if s.pend then .poll :: rest else rest } := by
  have read : ∀ t : State, readAndLog (targetAddr (.reg .status)) t = t.logRead t.status := by
    intro t
    rw [readAndLog, hostRead_status]
  rw [hostTurn, h]
  simp only [hostStmt, read, hostRead_status, status_busy]
  by_cases hp : s.pend = true
  · rw [if_pos hp, if_pos hp, ← h]
    rfl
  · rw [if_neg hp, if_neg hp]
    rfl

/-- Settles O45: the statement's rule, at the host's turn. -/
theorem pollWaitsWhileBusy : Obligations.PollWaitsWhileBusy := by
  intro s ts rest hn hh
  rw [step_of_hostNext hn, hostTurn_poll (s := { s with turns := ts }) hh]
  rfl

/-- Settles O46: RUN is its expansion, and the others are RUNs of commands whose words the encoder gives. -/
theorem pseudoInstructionsExpandAsListed : Obligations.PseudoInstructionsExpandAsListed := by
  refine ⟨fun i => rfl, ?_⟩
  decide

end Sys2Proof.Machine

/-! The life of a command (40_command_lifecycle.md): its acceptance, the engine's step on the pending word, NOP, and the
completion of whatever is pending. -/

namespace Sys2Proof.Machine

/-! ### acceptance (R101) -/

/-- Settles O31: `0x0008` is the word of CMD, and a write there while BUSY = 0 is `State.accept`. -/
theorem aWriteToCmdIsAccepted : Obligations.AWriteToCmdIsAccepted := fun _ v hp => hostWrite_cmd rfl v hp

/-! ### the engine's step on the pending word (R103, R105, R107) -/

theorem execWord_cmd {w : Word} {i : Instr} (h : decode w = .cmd i) (s : State) : execWord w s = exec i s := by
  rw [execWord, h]

/-- Settles O7: the engine executes the pending word, and executing a word that decodes is its command's `exec`. -/
theorem stepRunsTheDecodedCommand : Obligations.StepRunsTheDecodedCommand := by
  intro s ts i hn hp hi
  rw [step_of_engineNext hn hp, execWord_cmd hi]

/-- Settles O8: a word outside the table decodes to itself as illegal, and executing it is `raiseError`. -/
theorem stepOnAnIllegalWordRecordsIllegalCmd : Obligations.StepOnAnIllegalWordRecordsIllegalCmd := by
  intro s ts hn hp hno
  obtain ⟨-, illegal⟩ := legalWordsAreTheTenOfTheTable s.pcmd
  obtain ⟨why, hill⟩ := illegal hno
  refine ⟨raiseError .illegalCmd s.pcmd { s with turns := ts }, ?_, raiseError_recorded _ _ _,
    raiseError_sameOperands _ _ { s with turns := ts }, complete_frame (.error .illegalCmd s.pcmd) _⟩
  rw [step_of_engineNext hn hp, execWord_illegal hill]

/-! ### NOP (R106) -/

/-- The OP field of a word that decodes is its command's (R82). -/
theorem op_of_decode {w : Word} {i : Instr} (h : decode w = .cmd i) : w.extractLsb' 0 4 = i.opField := by
  rcases decode_cases w with ⟨j, hj, -, -, hop⟩ | ⟨why, hill, -⟩
  · rw [hj] at h
    cases h
    exact hop
  · rw [hill] at h
    cases h

theorem eq_nop_of_opField {i : Instr} (h : i.opField = 0#4) : i = .nop := by
  revert h
  cases i <;> decide

theorem decode_eq_nop_iff {w : Word} : decode w = .cmd .nop ↔ w = 0x00000000#32 := decode_eq_cmd_iff

/-- A word with OP = 0 that is not NOP's is illegal (R85, R106). -/
theorem decode_illegal_of_op_zero {w : Word} (hop : w.extractLsb' 0 4 = 0#4) (hw : w ≠ 0x00000000#32) :
    ∃ why, decode w = .illegal why w := by
  refine decode_illegal_of_no_cmd ?_
  rintro ⟨i, hi⟩
  have hnop : i = .nop := eq_nop_of_opField ((op_of_decode hi).symm.trans hop)
  exact hw (decode_eq_nop_iff.mp (hnop ▸ hi))

/-- STATUS after a completion without error or short chunk: DONE, and HZD where it was set (R29, R104). -/
theorem status_of_recorded_none {t : State} (h : t.Recorded .none 0#32 false) :
    t.status = if t.hzd then 0x0000000A#32 else 0x00000002#32 := by
  obtain ⟨hpend, hdone, herr, -, htrail⟩ := h
  rw [State.status, hpend, hdone, herr, htrail]
  cases t.hzd <;> rfl

theorem sameOperands_refl (s : State) : SameOperands s s := by
  obtain ⟨-, hops, -⟩ := sameBlock_refl s
  exact hops

/-- Settles O11: the decoder by the fields of NOP's word, the execution as a completion that writes nothing. -/
theorem nopClearsTheRecordAndWritesNoOperand : Obligations.NopClearsTheRecordAndWritesNoOperand := by
  refine ⟨fun w => decode_eq_nop_iff, fun w => decode_illegal_of_op_zero, fun s => ?_⟩
  have recorded := complete_ok_recorded .nothing false s
  exact ⟨_, exec_nop s, recorded, sameOperands_refl s, complete_frame (.ok .nothing false) s,
    status_of_recorded_none recorded⟩

/-! ### completion of a pending command (R108, R65, R68) -/

theorem sameOperands_trans {s t u : State} (hst : SameOperands s t) (htu : SameOperands t u) : SameOperands s u := by
  have buf : ∀ {a}, SameBuf a s t → SameBuf a t u → SameBuf a s u :=
    fun h h' => ⟨h'.1.trans h.1, h'.2.trans h.2⟩
  obtain ⟨hk, hd, hr, htext, htlen⟩ := hst
  obtain ⟨hk', hd', hr', htext', htlen'⟩ := htu
  exact ⟨buf hk hk', buf hd hd', buf hr hr', htext'.trans htext, htlen'.trans htlen⟩

/-- The same operands hold the same operand strings. -/
theorem operandsAgree_of_sameOperands {s t : State} (hm : t.maxBits = s.maxBits) (h : SameOperands s t) :
    OperandsAgree s t := by
  have buf : ∀ {a}, SameBuf a s t → s.len a = t.len a ∧ s.val a = t.val a := by
    rintro a ⟨hb, hl⟩
    rw [State.val, State.val, hb, hl]
    exact ⟨rfl, rfl⟩
  obtain ⟨hk, hd, hr, htext, htlen⟩ := h
  refine ⟨hm.symm, fun a => ?_, htlen.symm, by rw [State.textVal, State.textVal, htext, htlen]⟩
  cases a
  exacts [buf hk, buf hd, buf hr]

/-- A successful command writes the same over the same operands. -/
theorem apply_sameOperands (w : Writes) {s t : State} (hm : t.maxBits = s.maxBits) (h : SameOperands s t) :
    SameOperands (w.apply s) (w.apply t) := by
  obtain ⟨hk, hd, hr, htext⟩ := h
  cases w with
  | nothing => exact ⟨hk, hd, hr, htext⟩
  | text r => exact ⟨hk, hd, hr, by simp [Writes.apply, State.maxChars, hm], rfl⟩
  | buffer a r =>
    have result : fill t.maxBits false r = fill s.maxBits false r := by rw [hm]
    cases a with
    | key => exact ⟨⟨result, rfl⟩, hd, hr, htext⟩
    | data => exact ⟨hk, ⟨result, rfl⟩, hr, htext⟩
    | res => exact ⟨hk, hd, ⟨result, rfl⟩, htext⟩

theorem complete_sameOperands (o : CmdOutcome) {s t : State} (hm : t.maxBits = s.maxBits) (h : SameOperands s t) :
    SameOperands (complete o s) (complete o t) := by
  cases o with
  | ok w b => exact apply_sameOperands w hm h
  | error c i => exact h

/-- `t` holds what executing `w` from `s` leaves: the operands, ERR, EINFO and TRAIL, with DONE 1. -/
def CompletedAs (w : Word) (s t : State) : Prop :=
  t.done = true ∧ ∃ u, execWord w s = .next u ∧ SameOperands u t ∧ t.err = u.err ∧ t.einfo = u.einfo ∧
    t.trail = u.trail

theorem completedAs_of_execWord {w : Word} {s t : State} (h : execWord w s = .next t) : CompletedAs w s t := by
  have done : t.done = true := by
    rw [execWord_eq] at h
    cases h
    exact (complete_done _ s).2
  exact ⟨done, t, h, sameOperands_refl t, rfl, rfl, rfl⟩

/-- What a word leaves is the same from any state with the same MAXBITS and operands. -/
theorem completedAs_of_sameOperands {w : Word} {s s' t : State} (hm : s'.maxBits = s.maxBits)
    (h : SameOperands s s') (ht : CompletedAs w s' t) : CompletedAs w s t := by
  obtain ⟨hdone, u, hu, hops, herr, heinfo, htrail⟩ := ht
  rw [execWord_eq, ← outcomeOf_agree w (operandsAgree_of_sameOperands hm h)] at hu
  cases hu
  obtain ⟨re, ri, rt⟩ := complete_recorded_agree (outcomeOf w s) s' s
  exact ⟨hdone, _, execWord_eq w s, sameOperands_trans (complete_sameOperands _ hm h) hops, herr.trans re,
    heinfo.trans ri, htrail.trans rt⟩

/-- The engine's step completes the pending command (R103, R108). -/
theorem step_engine_completes {s : State} {ts : List Turn} (h : s.EngineNext ts) (hp : s.pend = true) :
    ∃ t, step s = .next t ∧ t.pend = false ∧ CompletedAs s.pcmd s t := by
  have he := execWord_eq s.pcmd { s with turns := ts }
  refine ⟨_, (step_of_engineNext h hp).trans he, (complete_done _ _).1, ?_⟩
  exact completedAs_of_sameOperands (s' := { s with turns := ts }) rfl (sameOperands_refl s)
    (completedAs_of_execWord he)

theorem step_of_reset {s : State} {ts : List Turn} (h : s.turns = .reset :: ts) :
    step s = .next (resetBlock { s with turns := ts }) := by
  rw [step, nextTurn_cons s _ _ h]
  rfl

theorem readAndLog_turns (addr : Addr) (s : State) : (readAndLog addr s).turns = s.turns := by
  rcases readAndLog_cases addr s with e | ⟨-, e⟩ <;> rw [e] <;> rfl

theorem hostTurn_turns_while_pending {s : State} (hp : s.pend = true) : (hostTurn s).turns = s.turns := by
  rcases hostTurn_cases s with e | ⟨target, v, rest, -, e⟩ | ⟨target, rest, -, e⟩ | ⟨rest, -, e⟩
  all_goals rw [e]
  · rw [hostWrite_busy (s := { s with host := rest }) _ v hp]
  · rw [readAndLog_turns]

/-- Induction on the turns to come: the host's turns keep the command, its operands and MAXBITS, a reset discards it,
and the engine's turn, or the end of the list, completes it. -/
theorem pending_completes (ts : List Turn) {s : State} (hts : s.turns = ts) (hp : s.pend = true) :
    ∃ k t, k ≤ ts.length + 1 ∧ Sys2Proof.core.run k s = .next t ∧ t.pend = false ∧
      (.reset ∉ ts → CompletedAs s.pcmd s t) := by
  induction ts generalizing s with
  | nil =>
    obtain ⟨t, ht, hpend, hc⟩ := step_engine_completes (.inr ⟨hts, rfl, hp⟩) hp
    exact ⟨1, t, Nat.le_refl 1, core_run_succ 0 ht, hpend, fun _ => hc⟩
  | cons turn ts ih =>
    cases turn with
    | engine =>
      obtain ⟨t, ht, hpend, hc⟩ := step_engine_completes (.inl hts) hp
      exact ⟨1, t, Nat.le_add_left 1 _, core_run_succ 0 ht, hpend, fun _ => hc⟩
    | reset =>
      exact ⟨1, _, Nat.le_add_left 1 _, core_run_succ 0 (step_of_reset hts), rfl,
        fun hno => absurd List.mem_cons_self hno⟩
    | host =>
      have keeps := hostTurn_while_pending (s := { s with turns := ts }) hp
      obtain ⟨hp', (hpcmd : _ = s.pcmd), (hm : _ = s.maxBits), hops⟩ := keeps
      have hturns : (hostTurn { s with turns := ts }).turns = ts := hostTurn_turns_while_pending hp
      obtain ⟨k, t, hk, hrun, hpend, hc⟩ := ih hturns hp'
      rw [hpcmd] at hc
      refine ⟨k + 1, t, Nat.succ_le_succ hk, ?_, hpend, fun hno => ?_⟩
      · rw [core_run_succ k (step_of_hostNext (.inl hts)), hrun]
      · exact completedAs_of_sameOperands hm hops (hc (List.not_mem_of_not_mem_cons hno))

/-- Settles O57, by induction on the turns to come. -/
theorem aPendingCommandCompletesAsIssued : Obligations.APendingCommandCompletesAsIssued :=
  fun s hp => pending_completes s.turns rfl hp

end Sys2Proof.Machine

/-! The BitCodec unit (41_bitcodec.md): what ENCODE and DECODE write and record, how each fails, and that each undoes
the other. -/

namespace Sys2Proof.Machine

/-! ### capacities -/

/-- A legal MAXBITS fits a length register (R6, R23). -/
theorem maxBits_lt_of_inv {s : State} (h : s.Inv) : s.maxBits < 2 ^ 32 := by
  obtain ⟨⟨-, hmax, -⟩, -⟩ := h
  omega

/-- A length within MAXBITS has at most MAXCHARS chunks, since MAXBITS is a multiple of 8 (R6, R128). -/
theorem ceil8_le_maxChars {s : State} (h : s.Inv) {n : Nat} (hn : n ≤ s.maxBits) : ceil8 n ≤ s.maxChars := by
  obtain ⟨⟨-, -, hmod⟩, -⟩ := h
  rw [ceil8, State.maxChars]
  omega

/-- A text that fits has an encoding that fits (R7, R123). -/
theorem eight_mul_tlen_le_maxBits {s : State} (h : s.EncodeReady) : 8 * s.tlen.toNat ≤ s.maxBits := by
  obtain ⟨htlen, -⟩ := h
  rw [State.maxChars] at htlen
  omega

/-! ### failures (R122, R123, R128) -/

/-- An error records its code, writes no operand and keeps the frame of a completion (R104). -/
theorem complete_error_records_only (c : ErrCode) (i : Word) (s : State) :
    (complete (.error c i) s).Recorded c i false ∧ SameOperands s (complete (.error c i) s) ∧
      CompletionFrame s (complete (.error c i) s) :=
  ⟨raiseError_recorded c i s, raiseError_sameOperands c i s, complete_frame _ s⟩

theorem encodeOutcome_tooLong (a : Buf) {s : State} (h : s.maxChars < s.tlen.toNat) :
    encodeOutcome a s = .error .lenRange 3#32 := if_pos h

theorem encodeOutcome_codeRange (a : Buf) {s : State} {j : Nat} (h : s.tlen.toNat ≤ s.maxChars)
    (hj : firstAbove255 s.textVal = some j) : encodeOutcome a s = .error .codeRange (BitVec.ofNat 32 j) := by
  rw [encodeOutcome, if_neg (Nat.not_lt.mpr h), hj]

/-- The check on code points names index `j` of TEXT exactly as R122 says. -/
theorem firstAbove255_textVal {s : State} {j : Nat} (hj : j < s.tlen.toNat) (h : 255 < (s.text.getD j 0#32).toNat)
    (hleast : ∀ i < j, (s.text.getD i 0#32).toNat ≤ 255) : firstAbove255 s.textVal = some j := by
  have hstored : j < s.text.length := by
    by_contra hno
    rw [List.getD_eq_default _ _ (Nat.le_of_not_lt hno)] at h
    exact absurd h (by decide)
  refine firstAbove255_eq_some.mpr ⟨?_, ?_, fun i hi => ?_⟩
  · rw [State.textVal, List.length_take]
    exact Nat.lt_min.mpr ⟨hj, hstored⟩
  · rw [textVal_getD s hj]
    exact h
  · rw [textVal_getD s (hi.trans hj)]
    exact hleast i hi

/-- Settles O13: the length check comes first. -/
theorem encodeOfATooLongTextFails : Obligations.EncodeOfATooLongTextFails := by
  intro a s h
  exact ⟨_, by rw [exec_encodeInto, encodeOutcome_tooLong a h], complete_error_records_only _ _ s⟩

/-- Settles O14: the check on code points finds the least index. -/
theorem encodeOfACodePointAbove255Fails : Obligations.EncodeOfACodePointAbove255Fails := by
  intro a s j htlen hj h hleast
  have hfirst := firstAbove255_textVal hj h hleast
  exact ⟨_, by rw [exec_encodeInto, encodeOutcome_codeRange a htlen hfirst], complete_error_records_only _ _ s⟩

/-- Settles O17: the length check, and the count of chunks of a string that passes it. -/
theorem decodeOfATooLongStringFails : Obligations.DecodeOfATooLongStringFails := by
  intro a s
  refine ⟨fun h => ⟨_, by rw [exec_decodeFrom, decodeOutcome_tooLong a h], ?_⟩,
    fun hi h => ceil8_le_maxChars hi h⟩
  cases a <;> exact complete_error_records_only _ _ s

/-! ### what ENCODE writes (R120, R121, R124) -/

/-- ENCODE of a text in order completes with its encoding. -/
theorem exec_encodeInto_ready (a : Buf) {s : State} (h : s.EncodeReady) :
    exec (Instr.encodeInto a) s = .next (complete (.ok (.buffer a (encodeText s.textVal)) false) s) := by
  rw [exec_encodeInto, encodeOutcome_ready a h]

theorem encodeText_textVal_length {s : State} (hi : s.Inv) (h : s.EncodeReady) :
    (encodeText s.textVal).length = 8 * s.tlen.toNat := by
  obtain ⟨-, hwf, -⟩ := hi
  obtain ⟨htlen, -⟩ := h
  rw [encodeText_length, textVal_length hwf htlen]

/-- A success keeps the invariant: it records no error. -/
theorem complete_ok_inv {s : State} (h : s.Inv) (w : Writes) (b : Bool) : (complete (.ok w b) s).Inv :=
  complete_inv h fun _ => nofun

/-- After an ENCODE without error the buffer's string is the encoding of the text. -/
theorem encodeInto_leaves {a : Buf} {s t : State} (hi : s.Inv) (h : s.EncodeReady)
    (hexec : exec (Instr.encodeInto a) s = .next t) :
    t.Inv ∧ t.maxBits = s.maxBits ∧ t.err = .none ∧ t.val a = encodeText s.textVal ∧
      (t.len a).toNat = 8 * s.tlen.toNat := by
  have hlen := encodeText_textVal_length hi h
  have hfits := eight_mul_tlen_le_maxBits h
  have hword := maxBits_lt_of_inv hi
  rw [exec_encodeInto_ready a h] at hexec
  cases hexec
  refine ⟨complete_ok_inv hi _ _, complete_maxBits _ s, rfl, complete_buffer_val s a _ (by omega) (by omega), ?_⟩
  rw [complete_buffer_len, BitVec.toNat_ofNat, hlen, Nat.mod_eq_of_lt (by omega)]

/-- Settles O12: the buffer is the encoding of the text, filled with zeros. -/
theorem encodeWritesTheCodePoints : Obligations.EncodeWritesTheCodePoints := by
  intro a s hi h
  have hlen := encodeText_textVal_length hi h
  have hfits := eight_mul_tlen_le_maxBits h
  obtain ⟨-, -, -, -, hlenReg⟩ := encodeInto_leaves hi h (exec_encodeInto_ready a h)
  refine ⟨_, exec_encodeInto_ready a h, fun j hj k hk => ?_, fun p hp hmax => ?_, ?_, hlenReg,
    complete_ok_recorded _ _ s, complete_buffer_sameText _ _ _ s, fun b hb => complete_buffer_sameBuf hb _ _ s,
    complete_frame _ s⟩
  · rw [complete_buffer_buf, bitAt_fill _ _ _ (by omega), bitAt_encodeText _ hk, textVal_getD s hj]
  · rw [complete_buffer_buf, bitAt_fill _ _ _ hmax, bitAt_of_ge (by omega)]
  · rw [complete_buffer_buf, fill_length]

/-- A code point of at most 255 has no bit above bit 7. -/
theorem getLsbD_of_le_255 {c : Word} (h : c.toNat ≤ 255) {i : Nat} (hi : 8 ≤ i) : c.getLsbD i = false := by
  refine Nat.testBit_lt_two_pow (h.trans_lt ?_)
  calc 255 < 2 ^ 8 := by decide
    _ ≤ 2 ^ i := Nat.pow_le_pow_right (by decide) hi

/-- Bit q of byte p of a byte shifted m bytes up is the byte's own bit q where p is m, and 0 elsewhere. -/
theorem shiftedByte_getLsbD {c : Word} (h : c.toNat ≤ 255) (m : Nat) {p q : Nat} (hp : p < 4) (hq : q < 8) :
    (c <<< (8 * m)).getLsbD (8 * p + q) = (decide (p = m) && c.getLsbD q) := by
  rw [BitVec.getLsbD_shiftLeft]
  rcases Nat.lt_trichotomy p m with hlt | rfl | hgt
  · have below : 8 * p + q < 8 * m := by omega
    simp [below, hlt.ne]
  · have within : 8 * p + q < 32 := by omega
    simp [within]
  · have above : 8 ≤ 8 * p + q - 8 * m := by omega
    simp [getLsbD_of_le_255 h above, hgt.ne']

/-- Four bytes shifted into one word: bit q of byte p of the word is bit q of that byte, the last one lowest (R124). -/
theorem fourBytes_getLsbD {c₀ c₁ c₂ c₃ : Word} (h₀ : c₀.toNat ≤ 255) (h₁ : c₁.toNat ≤ 255) (h₂ : c₂.toNat ≤ 255)
    (h₃ : c₃.toNat ≤ 255) {p q : Nat} (hp : p < 4) (hq : q < 8) :
    (c₀ <<< 24 ||| c₁ <<< 16 ||| c₂ <<< 8 ||| c₃).getLsbD (8 * p + q) = ([c₃, c₂, c₁, c₀].getD p 0#32).getLsbD q := by
  have b₀ := shiftedByte_getLsbD h₀ 3 hp hq
  have b₁ := shiftedByte_getLsbD h₁ 2 hp hq
  have b₂ := shiftedByte_getLsbD h₂ 1 hp hq
  have b₃ := shiftedByte_getLsbD h₃ 0 hp hq
  rw [Nat.mul_zero, BitVec.shiftLeft_zero] at b₃
  rw [BitVec.getLsbD_or, BitVec.getLsbD_or, BitVec.getLsbD_or, b₀, b₁, b₂, b₃]
  interval_cases p <;> simp

theorem textVal_getD_le_255 {s : State} (h : s.EncodeReady) (j : Nat) : (s.textVal.getD j 0#32).toNat ≤ 255 := by
  by_cases hj : j < s.textVal.length
  · rw [List.getD_eq_getElem _ _ hj]
    exact h.2 _ (List.getElem_mem hj)
  · rw [List.getD_eq_default _ _ (Nat.le_of_not_lt hj)]
    decide

/-- Settles O15: position k of the word is a position of character 4w + k/8, on both sides. -/
theorem encodedWordsHoldFourCharacters : Obligations.EncodedWordsHoldFourCharacters := by
  intro a s t w hi h hw hexec
  rw [exec_encodeInto_ready a h] at hexec
  cases hexec
  have hwindow : 32 * w + 32 ≤ s.maxBits := by
    rw [State.maxWords] at hw
    omega
  have byte := textVal_getD_le_255 h
  refine word_ext_positions fun k hk => ?_
  have hpos : 32 * w + k = 8 * (4 * w + k / 8) + k % 8 := by omega
  have hbit : 31 - k = 8 * (3 - k / 8) + (7 - k % 8) := by omega
  rw [complete_buffer_buf, packWord_getLsbD (by rwa [fill_length]) hk, bitAt_fill _ _ _ (by omega), hpos,
    bitAt_encodeText _ (Nat.mod_lt _ (by decide)), hbit,
    fourBytes_getLsbD (byte _) (byte _) (byte _) (byte _) (by omega) (by omega)]
  congr 1
  have hbyte : k / 8 < 4 := by omega
  interval_cases k / 8 <;> rfl

/-! ### what DECODE writes (R125, R126, R127) -/

/-- DECODE of a string within capacity completes with the values of its chunks. -/
theorem exec_decodeFrom_ready {a : Buf} {s : State} (h : s.DecodeReady a) :
    exec (Instr.decodeFrom a) s =
      .next (complete (.ok (.text (decodeBits (s.val a))) (decide ((s.len a).toNat % 8 ≠ 0))) s) := by
  rw [exec_decodeFrom, decodeOutcome_ready a h]

theorem decodeBits_val_length {a : Buf} {s : State} (hi : s.Inv) (h : s.DecodeReady a) :
    (decodeBits (s.val a)).length = ceil8 (s.len a).toNat := by
  obtain ⟨-, hwf, -⟩ := hi
  rw [decodeBits_length, val_length hwf h]

/-- The decoded text fits TEXT, and its length fits TLEN (R128). -/
theorem decodeBits_val_fits {a : Buf} {s : State} (hi : s.Inv) (h : s.DecodeReady a) :
    (decodeBits (s.val a)).length ≤ s.maxChars ∧ (decodeBits (s.val a)).length < 2 ^ 32 := by
  have hlen := decodeBits_val_length hi h
  have hfits := ceil8_le_maxChars hi h
  have hword := maxBits_lt_of_inv hi
  rw [State.maxChars] at hfits ⊢
  omega

/-- After a DECODE without error the text is the list of the values of the string's chunks. -/
theorem decodeFrom_leaves {a : Buf} {s t : State} (hi : s.Inv) (h : s.DecodeReady a)
    (hexec : exec (Instr.decodeFrom a) s = .next t) :
    t.Inv ∧ t.maxBits = s.maxBits ∧ t.Recorded .none 0#32 (decide ((s.len a).toNat % 8 ≠ 0)) ∧
      t.textVal = decodeBits (s.val a) ∧ t.tlen.toNat = ceil8 (s.len a).toNat := by
  obtain ⟨hfits, hword⟩ := decodeBits_val_fits hi h
  rw [exec_decodeFrom_ready h] at hexec
  cases hexec
  refine ⟨complete_ok_inv hi _ _, complete_maxBits _ s, complete_ok_recorded _ _ s,
    complete_text_textVal s _ hfits hword, ?_⟩
  rw [complete_text_tlen, BitVec.toNat_ofNat, Nat.mod_eq_of_lt hword, decodeBits_val_length hi h]

/-- The value of a chunk as R16's sum over the positions of the whole string. -/
theorem uval_chunk_take_eq_sum {b : Bits} {n : Nat} (hn : n ≤ b.length) (j : Nat) :
    uval (chunk (b.take n) j) =
      ((List.range (min 8 (n - 8 * j))).map fun k =>
        (bitAt b (8 * j + k)).toNat * 2 ^ (min 8 (n - 8 * j) - 1 - k)).sum := by
  have hlen : (chunk (b.take n) j).length = min 8 (n - 8 * j) := by
    rw [chunk_length, List.length_take, Nat.min_eq_left hn]
  rw [uval_eq_sum, hlen]
  congr 1
  refine List.map_congr_left fun k hk => ?_
  have hk : k < min 8 (n - 8 * j) := List.mem_range.mp hk
  have hin : k < 8 ∧ 8 * j + k < n := by omega
  rw [chunk, bitAt_take, bitAt_drop, bitAt_take]
  simp [hin]

/-- Settles O16: TEXT is the list of chunk values, filled with zeros. -/
theorem decodeWritesTheChunkValues : Obligations.DecodeWritesTheChunkValues := by
  intro a s hi h
  obtain ⟨hfits, -⟩ := decodeBits_val_fits hi h
  have hcount := decodeBits_val_length hi h
  obtain ⟨-, -, hrecorded, -, htlen⟩ := decodeFrom_leaves hi h (exec_decodeFrom_ready h)
  obtain ⟨-, hwf, -⟩ := hi
  have hlen := val_length hwf h
  refine ⟨_, exec_decodeFrom_ready h, fun j hj => ?_, fun j hj _ => ?_, ?_, htlen, hrecorded,
    fun b => complete_text_sameBuf b _ _ s, complete_frame _ s⟩
  · rw [complete_text_text, getD_fill _ hfits, decodeBits_getD _ (by omega), uval_chunk_word]
    exact uval_chunk_take_eq_sum ((buf_length hwf a).symm ▸ h) j
  · rw [complete_text_text, getD_fill _ hfits, List.getD_eq_default _ _ (by rw [hcount, ceil8]; omega)]
  · rw [complete_text_text, fill_length]

theorem complete_ok_trail (w : Writes) (b : Bool) (s : State) : (complete (.ok w b) s).trail = b := rfl

theorem complete_error_trail (c : ErrCode) (i : Word) (s : State) : (complete (.error c i) s).trail = false := rfl

theorem complete_encodeOutcome_trail (a : Buf) (s : State) : (complete (encodeOutcome a s) s).trail = false := by
  rcases encodeOutcome_cases a s with ⟨-, e⟩ | ⟨_, -, -, e⟩ | ⟨-, e⟩ <;> rw [e] <;> rfl

theorem complete_xorOutcome_trail (a : Buf) (s : State) : (complete (xorOutcome a s) s).trail = false := by
  rcases xorOutcome_cases a s with ⟨-, e⟩ | ⟨-, -, e⟩ | ⟨-, -, -, e⟩ | ⟨-, e⟩ <;> rw [e] <;> rfl

/-- DECODE sets TRAIL for a string within capacity with a short last chunk (R127). -/
theorem complete_decodeOutcome_trail (a : Buf) (s : State) :
    (complete (decodeOutcome a s) s).trail = true ↔ s.DecodeReady a ∧ (s.len a).toNat % 8 ≠ 0 := by
  rcases decodeOutcome_cases a s with ⟨hlong, e⟩ | ⟨hready, e⟩ <;> rw [e]
  · rw [complete_error_trail]
    exact ⟨nofun, fun ⟨hready, _⟩ => absurd hready (Nat.not_le.mpr hlong)⟩
  · rw [complete_ok_trail, decide_eq_true_iff, and_iff_right hready]

/-- Settles O18: by the operation of the word, of which only DECODE's outcome can carry a TRAIL. -/
theorem trailTellsAShortChunkOfADecode : Obligations.TrailTellsAShortChunkOfADecode := by
  intro w s t hexec
  constructor
  · intro htrail
    rw [execWord_eq] at hexec
    cases hexec
    rcases outcomeOf_cases w s with ⟨-, e⟩ | ⟨a, -, e⟩ | ⟨a, hdecode, e⟩ | ⟨a, -, e⟩ | ⟨-, -, e⟩
    all_goals rw [e] at htrail
    · cases htrail
    · rw [complete_encodeOutcome_trail] at htrail
      cases htrail
    · exact ⟨a, hdecode, (complete_decodeOutcome_trail a s).mp htrail⟩
    · rw [complete_xorOutcome_trail] at htrail
      cases htrail
    · cases htrail
  · rintro ⟨a, hdecode, hshort⟩
    rw [execWord_cmd hdecode, exec_decodeFrom] at hexec
    cases hexec
    exact (complete_decodeOutcome_trail a s).mpr hshort

/-! ### each undoes the other (R129) -/

/-- Settles O25: DECODE finds the encoding of the text as the buffer's string, of a length that is a multiple of 8. -/
theorem encodeThenDecodeGivesBackTheText : Obligations.EncodeThenDecodeGivesBackTheText := by
  intro a s t u hi h hencode hdecode
  have ⟨_, hcodes⟩ := h
  obtain ⟨hit, hmax, -, hval, hlen⟩ := encodeInto_leaves hi h hencode
  have hready : t.DecodeReady a := by
    have hfits := eight_mul_tlen_le_maxBits h
    rw [State.DecodeReady, hlen, hmax]
    exact hfits
  obtain ⟨-, -, ⟨-, -, herr, -, htrail⟩, htext, htlen⟩ := decodeFrom_leaves hit hready hdecode
  refine ⟨?_, ?_, herr, ?_⟩
  · rw [htext, hval, decodeBits_encodeText hcodes]
  · apply BitVec.eq_of_toNat_eq
    rw [htlen, hlen, ceil8]
    omega
  · rw [htrail, hlen, Nat.mul_mod_right]
    rfl

/-- The encoding of a decoded string: each chunk's value rendered in eight bits. -/
theorem encodeText_decodeBits (s : Bits) :
    encodeText (decodeBits s) = (List.range (ceil8 s.length)).flatMap fun j => bits8 (uval (chunk s j)) := by
  simp only [encodeText, decodeBits, List.flatMap_map, uval_chunk_word]

/-- The chunks joined are the string as far as they reach. -/
theorem flatMap_chunk (s : Bits) (m : Nat) : (List.range m).flatMap (chunk s) = s.take (8 * m) := by
  induction m with
  | zero => rfl
  | succ m ih =>
    rw [List.range_succ, List.flatMap_append, ih, List.flatMap_singleton, chunk, Nat.mul_succ, List.take_add]

/-- The eight-bit renderings of the whole chunks' values, joined, are the string as far as whole chunks reach. -/
theorem flatMap_bits8_uval_chunk {s : Bits} {m : Nat} (h : 8 * m ≤ s.length) :
    ((List.range m).flatMap fun j => bits8 (uval (chunk s j))) = s.take (8 * m) := by
  rw [← flatMap_chunk]
  refine List.flatMap_congr fun j hj => ?_
  have hj : j < m := List.mem_range.mp hj
  have hwhole : (chunk s j).length = 8 := by rw [chunk_length]; omega
  rw [bits8_uval hwhole.le, hwhole, Nat.sub_self, List.replicate_zero, List.nil_append]

theorem encodeText_decodeBits_of_whole {s : Bits} (h : s.length % 8 = 0) : encodeText (decodeBits s) = s := by
  have hcount : 8 * ceil8 s.length = s.length := by rw [ceil8]; omega
  rw [encodeText_decodeBits, flatMap_bits8_uval_chunk hcount.le, hcount, List.take_length]

/-- A short last chunk comes back padded with zeros on the left (R129). -/
theorem encodeText_decodeBits_of_short {s : Bits} (h : s.length % 8 ≠ 0) :
    encodeText (decodeBits s) = s.take (8 * (s.length / 8)) ++ List.replicate (8 - s.length % 8) false ++
      s.drop (8 * (s.length / 8)) := by
  have hcount : ceil8 s.length = s.length / 8 + 1 := by rw [ceil8]; omega
  have hrest : (s.drop (8 * (s.length / 8))).length = s.length % 8 := by rw [List.length_drop]; omega
  have hlast : chunk s (s.length / 8) = s.drop (8 * (s.length / 8)) := List.take_of_length_le (by omega)
  rw [encodeText_decodeBits, hcount, List.range_succ, List.flatMap_append,
    flatMap_bits8_uval_chunk (Nat.mul_div_le _ _), List.flatMap_singleton, hlast, bits8_uval (by omega), hrest,
    List.append_assoc]

/-- Settles O26: the encoding of the decoded string, by whether its last chunk is short. -/
theorem decodeThenEncodePadsTheShortChunk : Obligations.DecodeThenEncodePadsTheShortChunk := by
  intro a s t u hi h hdecode hencode
  obtain ⟨hit, hmax, -, htext, htlen⟩ := decodeFrom_leaves hi h hdecode
  have hready : t.EncodeReady := by
    refine ⟨?_, htext ▸ decodeBits_le (s.val a)⟩
    rw [htlen, State.maxChars, hmax]
    exact ceil8_le_maxChars hi h
  obtain ⟨-, -, herr, hval, hulen⟩ := encodeInto_leaves hit hready hencode
  obtain ⟨-, hwf, -⟩ := hi
  have hlen := val_length hwf h
  rw [htext] at hval
  rw [htlen, ← hlen] at hulen
  rw [← hlen]
  refine ⟨herr, fun hmod => ⟨?_, ?_⟩, fun hmod => ⟨?_, hulen⟩⟩
  · rw [hval, encodeText_decodeBits_of_whole hmod]
  · apply BitVec.eq_of_toNat_eq
    rw [hulen, ← hlen, ceil8]
    omega
  · rw [hval, encodeText_decodeBits_of_short hmod]

end Sys2Proof.Machine

/-! The CipherEngine unit (42_cipherengine.md): what XOR writes and records, how it fails, and the laws of its
transform. -/

namespace Sys2Proof.Machine

/-! ### failures (R142, R143) -/

theorem xorOutcome_keyTooLong (a : Buf) {s : State} (h : s.maxBits < s.klen.toNat) :
    xorOutcome a s = .error .lenRange 0#32 := if_pos h

theorem xorOutcome_dataTooLong (a : Buf) {s : State} (hk : s.klen.toNat ≤ s.maxBits)
    (hd : s.maxBits < s.dlen.toNat) : xorOutcome a s = .error .lenRange 1#32 := by
  rw [xorOutcome, if_neg (Nat.not_lt.mpr hk), if_pos hd]
  rfl

theorem xorOutcome_mismatch (a : Buf) {s : State} (hk : s.klen.toNat ≤ s.maxBits) (hd : s.dlen.toNat ≤ s.maxBits)
    (h : s.klen ≠ s.dlen) : xorOutcome a s = .error .lengthMismatch 0#32 := by
  rw [xorOutcome, if_neg (Nat.not_lt.mpr hk), if_neg (Nat.not_lt.mpr hd), if_pos h]

/-- A failing XOR records its error and writes nothing but STATUS and EINFO, whatever the destination. -/
theorem exec_xorInto_error {a : Buf} {s : State} {c : ErrCode} {i : Word} (h : xorOutcome a s = .error c i) :
    ∃ t, exec (Instr.xorInto a) s = .next t ∧ t.Recorded c i false ∧ SameOperands s t ∧ CompletionFrame s t :=
  ⟨_, by rw [exec_xorInto, h], complete_error_records_only c i s⟩

/-- Settles O20: both lengths pass the capacity checks, and the third check fails. -/
theorem xorOfDifferentLengthsFails : Obligations.XorOfDifferentLengthsFails :=
  fun a _ hk hd h => exec_xorInto_error (xorOutcome_mismatch a hk hd h)

/-- Settles O21: KLEN is checked first, then DLEN, and their equality is not looked at. -/
theorem xorOfATooLongOperandFails : Obligations.XorOfATooLongOperandFails := fun a _ =>
  ⟨fun h => exec_xorInto_error (xorOutcome_keyTooLong a h),
    fun hk hd => exec_xorInto_error (xorOutcome_dataTooLong a hk hd)⟩

/-! ### what XOR writes (R140, R141, R144, R145) -/

/-- XOR of equal lengths within capacity completes with the transform of the operand strings. -/
theorem exec_xorInto_ready (a : Buf) {s : State} (h : s.XorReady) :
    exec (Instr.xorInto a) s =
      .next (complete (.ok (.buffer a (transform (s.val .key) (s.val .data))) false) s) := by
  rw [exec_xorInto, xorOutcome_ready a h]

/-- Settles O22: the transform of two empty strings is empty. -/
theorem xorOfEmptyOperandsClearsTheDestination : Obligations.XorOfEmptyOperandsClearsTheDestination := by
  intro a s hk hd
  have hready : s.XorReady := ⟨hk ▸ Nat.zero_le _, hk.trans hd.symm⟩
  have hempty : transform (s.val .key) (s.val .data) = [] := by
    rw [State.val, len_key, hk]
    rfl
  refine ⟨_, exec_xorInto_ready a hready, rfl, ?_, ?_⟩
  · rw [complete_buffer_len, hempty]
    rfl
  · rw [complete_buffer_buf, hempty, fill, List.take_nil, List.nil_append, List.length_nil, Nat.sub_zero]

/-- Both operand strings of an XOR without error are KLEN long (R142). -/
theorem xor_operands_length {s : State} (hi : s.Inv) (h : s.XorReady) :
    (s.val .key).length = s.klen.toNat ∧ (s.val .data).length = s.klen.toNat := by
  obtain ⟨-, hwf, -⟩ := hi
  obtain ⟨hk, heq⟩ := h
  have hd : s.dlen.toNat ≤ s.maxBits := heq ▸ hk
  exact ⟨val_length hwf hk, (val_length hwf (a := .data) hd).trans (congrArg BitVec.toNat heq.symm)⟩

theorem transform_val_length {s : State} (hi : s.Inv) (h : s.XorReady) :
    (transform (s.val .key) (s.val .data)).length = s.klen.toNat := by
  obtain ⟨hk, hd⟩ := xor_operands_length hi h
  rw [transform_length, hk, hd, Nat.min_self]

/-- After an XOR without error the destination's string is the transform of the operand strings as they were. -/
theorem xorInto_leaves {a : Buf} {s t : State} (hi : s.Inv) (h : s.XorReady)
    (hexec : exec (Instr.xorInto a) s = .next t) :
    t.Inv ∧ t.maxBits = s.maxBits ∧ t.err = .none ∧ t.val a = transform (s.val .key) (s.val .data) ∧
      t.len a = s.klen ∧ ∀ b, b ≠ a → SameBuf b s t := by
  have hlen := transform_val_length hi h
  have hword := maxBits_lt_of_inv hi
  have ⟨hfits, _⟩ := h
  rw [exec_xorInto_ready a h] at hexec
  cases hexec
  refine ⟨complete_ok_inv hi _ _, complete_maxBits _ s, rfl, complete_buffer_val s a _ (by omega) (by omega), ?_,
    fun b hb => complete_buffer_sameBuf hb _ _ s⟩
  rw [complete_buffer_len, hlen, BitVec.ofNat_toNat, BitVec.setWidth_eq]

/-- Position p of the destination: KEY xor DATA below the length, 0 from there on (R141). -/
theorem bitAt_xorInto {a : Buf} {s t : State} (hi : s.Inv) (h : s.XorReady)
    (hexec : exec (Instr.xorInto a) s = .next t) {p : Nat} (hp : p < s.maxBits) :
    bitAt (t.buf a) p = (decide (p < s.klen.toNat) && (bitAt s.key p != bitAt s.data p)) := by
  obtain ⟨hk, hd⟩ := xor_operands_length hi h
  have hlen := transform_val_length hi h
  have ⟨_, heq⟩ := h
  rw [exec_xorInto_ready a h] at hexec
  cases hexec
  rw [complete_buffer_buf, bitAt_fill _ _ _ hp]
  by_cases hin : p < s.klen.toNat
  · rw [bitAt_transform (by omega) (by omega), State.val, State.val, bitAt_take, bitAt_take, len_key, len_data, ← heq]
    simp [hin]
  · rw [bitAt_of_ge (by omega)]
    simp [hin]

/-- Settles O19: the destination by its positions, and the frame of a completion that writes one buffer. -/
theorem xorWritesTheTransform : Obligations.XorWritesTheTransform := by
  intro a s hi h
  have hexec := exec_xorInto_ready a h
  have ⟨hfits, _⟩ := h
  obtain ⟨-, -, -, -, hlenReg, hothers⟩ := xorInto_leaves hi h hexec
  refine ⟨_, hexec, fun p hp => ?_, fun p hp hmax => ?_, ?_, hlenReg, complete_ok_recorded _ _ s,
    complete_buffer_sameText _ _ _ s, hothers, complete_frame _ s⟩
  · rw [bitAt_xorInto hi h hexec (by omega), decide_eq_true hp, Bool.true_and]
  · rw [bitAt_xorInto hi h hexec hmax, decide_eq_false (Nat.not_lt.mpr hp), Bool.false_and]
  · rw [complete_buffer_buf, fill_length]

/-- Settles O23: position k of the word is a position of the buffer, on both sides. -/
theorem xorredWordsAreMaskedByTheLength : Obligations.XorredWordsAreMaskedByTheLength := by
  intro a s t w m hi h hw hmask hexec
  obtain ⟨hit, hmax, -⟩ := xorInto_leaves hi h hexec
  obtain ⟨-, hwft, -⟩ := hit
  have ⟨_, hwf, _⟩ := hi
  have hwin : 32 * w + 32 ≤ s.maxBits := buf_length hwf .key ▸ window_within hwf .key hw
  have hwt : w < t.maxWords := by rwa [State.maxWords, hmax]
  refine word_ext_positions fun k hk => ?_
  have hdest := packWord_getLsbD (window_within hwft a hwt) hk
  have hkey := packWord_getLsbD (window_within hwf .key hw) hk
  have hdata := packWord_getLsbD (window_within hwf .data hw) hk
  rw [buf_key] at hkey
  rw [buf_data] at hdata
  rw [hdest, bitAt_xorInto hi h hexec (by omega), BitVec.getLsbD_and, BitVec.getLsbD_xor, hkey, hdata, hmask k hk,
    Bool.and_comm]

/-! ### laws of the transform (R146, R147) -/

theorem transform_comm (k d : Bits) : transform k d = transform d k :=
  List.zipWith_comm_of_comm Bool.xor_comm

/-- A key whose positions are all 0 leaves the data (R147). -/
theorem transform_of_zero_key {k d : Bits} (hl : k.length = d.length) (hk : ∀ p < k.length, bitAt k p = false) :
    transform k d = d := by
  refine bits_ext (by rw [transform_length, hl, Nat.min_self]) fun p hp => ?_
  obtain ⟨hpk, hpd⟩ : p < k.length ∧ p < d.length := by rw [transform_length] at hp; omega
  rw [bitAt_transform hpk hpd, hk p hpk, Bool.false_bne]

/-- The source's `transform(key, transform(key, x)) == x` (R146). -/
theorem transform_transform {k d : Bits} (hl : k.length = d.length) : transform k (transform k d) = d := by
  have hlen : (transform k d).length = d.length := by rw [transform_length, hl, Nat.min_self]
  refine bits_ext (by rw [transform_length, hlen, hl, Nat.min_self]) fun p hp => ?_
  obtain ⟨hpk, hpd⟩ : p < k.length ∧ p < d.length := by rw [transform_length] at hp; omega
  rw [bitAt_transform hpk (hlen ▸ hpd), bitAt_transform hpk hpd, ← Bool.bne_assoc, bne_self_eq_false,
    Bool.false_bne]

/-- Settles O24: both runs write a transform of the same two strings, and below its length a zero key's string is
zero. -/
theorem xorIsCommutativeWithZeroAsIdentity : Obligations.XorIsCommutativeWithZeroAsIdentity := by
  intro a s t hi h hexec
  obtain ⟨-, -, -, hval, -⟩ := xorInto_leaves hi h hexec
  obtain ⟨hk, hd⟩ := xor_operands_length hi h
  refine ⟨fun u hu => ?_, fun hzero => ?_⟩
  · have ⟨hfits, heq⟩ := h
    have hswapped : State.XorReady { s with key := s.data, data := s.key, klen := s.dlen, dlen := s.klen } :=
      ⟨heq ▸ hfits, heq.symm⟩
    have hresult : transform (s.val .data) (s.val .key) = transform (s.val .key) (s.val .data) := transform_comm _ _
    rw [exec_xorInto_ready a hswapped] at hu
    rw [exec_xorInto_ready a h] at hexec
    cases hu
    cases hexec
    simp only [complete_buffer_buf, complete_buffer_len]
    exact ⟨congrArg _ hresult, congrArg (fun r : Bits => BitVec.ofNat 32 r.length) hresult⟩
  · rw [hval]
    refine transform_of_zero_key (hk.trans hd.symm) fun p hp => ?_
    rw [State.val, bitAt_take, buf_key, hzero p (hk ▸ hp), Bool.and_false]

/-- Settles O27: the first XOR leaves KEY and equal lengths, so the second transforms the first's result. -/
theorem xorDataTwiceGivesBackTheData : Obligations.XorDataTwiceGivesBackTheData := by
  intro s t u hi h hfirst hsecond
  have ⟨hfits, heq⟩ := h
  obtain ⟨hk, hd⟩ := xor_operands_length hi h
  obtain ⟨hit, hmax, herr, hval, hlen, hothers⟩ := xorInto_leaves (a := .data) hi h hfirst
  obtain ⟨hkey, hklen⟩ := hothers .key (by decide)
  have hready : t.XorReady := ⟨by rw [← len_key, hklen, hmax]; exact hfits, hklen.trans hlen.symm⟩
  obtain ⟨-, -, herr', hval', hlen', hothers'⟩ := xorInto_leaves (a := .data) hit hready hsecond
  obtain ⟨hkey', hklen'⟩ := hothers' .key (by decide)
  have hkval : t.val .key = s.val .key := by rw [State.val, hkey, hklen, ← State.val]
  refine ⟨herr, herr', ?_, ?_, hkey'.trans hkey, hklen'.trans hklen⟩
  · rw [hval', hkval, hval, transform_transform (hk.trans hd.symm)]
  · calc u.dlen = t.klen := hlen'
      _ = s.klen := hklen
      _ = s.dlen := heq

end Sys2Proof.Machine

/-! Errors and idleness (60_exceptions.md): what each recorded code says of its cause, what a failing command leaves
alone, and the engine's turn with nothing pending. -/

namespace Sys2Proof.Machine

/-! ### the causes of the error codes (R160) -/

/-- R160's table: what it takes, with the word `w` executed in `s`, for a completion to record a code and its EINFO. -/
inductive ErrorCause (w : Word) (s : State) : ErrCode → Word → Prop
  | none {i : Instr} (legal : decode w = .cmd i) : ErrorCause w s .none 0#32
  | illegalCmd {why : IllegalReason} (illegal : decode w = .illegal why w) : ErrorCause w s .illegalCmd w
  | bufferTooLong {a : Buf} (long : s.maxBits < (s.len a).toNat) : ErrorCause w s .lenRange (lenId a)
  | textTooLong (long : s.maxChars < s.tlen.toNat) : ErrorCause w s .lenRange textId
  | lengthMismatch {a : Buf} (xor : decode w = .cmd (Instr.xorInto a)) (differ : s.klen ≠ s.dlen) :
      ErrorCause w s .lengthMismatch 0#32
  | codeRange {a : Buf} {j : Word} (enc : decode w = .cmd (Instr.encodeInto a)) (below : j.toNat < s.tlen.toNat)
      (above : 255 < (s.text.getD j.toNat 0#32).toNat) (least : ∀ i < j.toNat, (s.text.getD i 0#32).toNat ≤ 255) :
      ErrorCause w s .codeRange j

/-- An index of the operand text above 255 is the least one of TEXT below TLEN (R122). -/
theorem text_above255_of_firstAbove255 {s : State} {j : Nat} (h : firstAbove255 s.textVal = some j) :
    j < s.tlen.toNat ∧ 255 < (s.text.getD j 0#32).toNat ∧ ∀ i < j, (s.text.getD i 0#32).toNat ≤ 255 := by
  obtain ⟨hlen, habove, hleast⟩ := firstAbove255_eq_some.mp h
  have hj : j < s.tlen.toNat := by
    rw [State.textVal, List.length_take] at hlen
    exact hlen.trans_le (Nat.min_le_left _ _)
  refine ⟨hj, textVal_getD s hj ▸ habove, fun i hi => ?_⟩
  exact textVal_getD s (hi.trans hj) ▸ hleast i hi

theorem encodeOutcome_cause {w : Word} {a : Buf} (hd : decode w = .cmd (Instr.encodeInto a)) (s : State) :
    ErrorCause w s (complete (encodeOutcome a s) s).err (complete (encodeOutcome a s) s).einfo := by
  rcases encodeOutcome_cases a s with ⟨hlong, e⟩ | ⟨j, -, hfirst, e⟩ | ⟨-, e⟩
  all_goals rw [e]
  · exact .textTooLong hlong
  · obtain ⟨hj, habove, hleast⟩ := text_above255_of_firstAbove255 hfirst
    have hinfo : (BitVec.ofNat 32 j).toNat = j := Nat.mod_eq_of_lt (hj.trans s.tlen.isLt)
    rw [← hinfo] at hj habove hleast
    exact .codeRange hd hj habove hleast
  · exact .none hd

theorem decodeOutcome_cause {w : Word} {a : Buf} (hd : decode w = .cmd (Instr.decodeFrom a)) (s : State) :
    ErrorCause w s (complete (decodeOutcome a s) s).err (complete (decodeOutcome a s) s).einfo := by
  rcases decodeOutcome_cases a s with ⟨hlong, e⟩ | ⟨-, e⟩
  all_goals rw [e]
  · exact .bufferTooLong hlong
  · exact .none hd

theorem xorOutcome_cause {w : Word} {a : Buf} (hd : decode w = .cmd (Instr.xorInto a)) (s : State) :
    ErrorCause w s (complete (xorOutcome a s) s).err (complete (xorOutcome a s) s).einfo := by
  rcases xorOutcome_cases a s with ⟨hlong, e⟩ | ⟨-, hlong, e⟩ | ⟨-, -, hne, e⟩ | ⟨-, e⟩
  all_goals rw [e]
  · exact .bufferTooLong (a := .key) hlong
  · exact .bufferTooLong (a := .data) hlong
  · exact .lengthMismatch hd hne
  · exact .none hd

/-- What a completion records has its cause in R160's table, by the operation of the word. -/
theorem execWord_cause {w : Word} {s t : State} (h : execWord w s = .next t) : ErrorCause w s t.err t.einfo := by
  rw [execWord_eq] at h
  cases h
  rcases outcomeOf_cases w s with ⟨hd, e⟩ | ⟨a, hd, e⟩ | ⟨a, hd, e⟩ | ⟨a, hd, e⟩ | ⟨why, hill, e⟩
  all_goals rw [e]
  · exact .none hd
  · exact encodeOutcome_cause hd s
  · exact decodeOutcome_cause hd s
  · exact xorOutcome_cause hd s
  · exact .illegalCmd hill

/-- Settles O29: the rows of R160's table, of which each speaks of one code. -/
theorem errorCodesSayWhatRaisedThem : Obligations.ErrorCodesSayWhatRaisedThem := by
  intro w s t hexec
  have cause := execWord_cause hexec
  generalize t.err = code, t.einfo = info at cause
  cases cause with
  | none legal => exact ⟨fun _ => ⟨rfl, _, legal⟩, nofun, nofun, nofun, nofun⟩
  | illegalCmd illegal =>
    refine ⟨nofun, fun _ => ⟨rfl, fun ⟨i, legal⟩ => ?_⟩, nofun, nofun, nofun⟩
    exact nomatch illegal.symm.trans legal
  | @bufferTooLong a long =>
    refine ⟨nofun, nofun, fun _ => ?_, nofun, nofun⟩
    cases a with
    | key => exact .inl ⟨rfl, long⟩
    | data => exact .inr (.inl ⟨rfl, long⟩)
    | res => exact .inr (.inr (.inl ⟨rfl, long⟩))
  | textTooLong long => exact ⟨nofun, nofun, fun _ => .inr (.inr (.inr ⟨rfl, long⟩)), nofun, nofun⟩
  | lengthMismatch xor differ => exact ⟨nofun, nofun, nofun, fun _ => ⟨rfl, differ, _, xor⟩, nofun⟩
  | codeRange enc below above least =>
    exact ⟨nofun, nofun, nofun, nofun, fun _ => ⟨⟨_, enc⟩, below, above, least⟩⟩

/-! ### precise errors (R166) -/

/-- Only a success writes operands, and a success records no error. -/
theorem complete_sameOperands_of_err {o : CmdOutcome} {s : State} (h : (complete o s).err ≠ .none) :
    SameOperands s (complete o s) := by
  cases o with
  | ok w b => exact absurd rfl h
  | error c i => exact raiseError_sameOperands c i s

/-- Settles O30: every execution is a completion, whatever its outcome. -/
theorem aFailingCommandWritesNoOperand : Obligations.AFailingCommandWritesNoOperand := by
  intro w s t hexec
  rw [execWord_eq] at hexec
  cases hexec
  obtain ⟨hpend, hdone⟩ := complete_done (outcomeOf w s) s
  exact ⟨hpend, hdone, complete_frame _ s, complete_sameOperands_of_err⟩

/-! ### the idle engine (R175, R103) -/

theorem engineTurn_idle {s : State} (hp : s.pend = false) : engineTurn s = .next s := by
  rw [engineTurn, hp]
  rfl

/-- Settles O9: the step is the engine's turn on the state with that turn taken. -/
theorem idleEngineTurnChangesNothing : Obligations.IdleEngineTurnChangesNothing := by
  intro s ts hturns hp
  rw [step, nextTurn_cons s _ _ hturns]
  exact engineTurn_idle hp

end Sys2Proof.Machine

/-! Reset and hazards (70_reset_and_hazards.md): the host's accesses while BUSY = 1, what reset leaves, and a run that is
over. -/

namespace Sys2Proof.Machine

/-! ### reads of operands while BUSY = 1 (R57, R185) -/

/-- The four length registers stand at 0x0020 to 0x002F: three by the buffers' numbers, and TLEN (R52). -/
theorem lengthRegister_of_range {addr : Addr} (h : 0x0020 ≤ addr.toNat ∧ addr.toNat ≤ 0x002F) :
    (∃ a, addr.toNat / 4 * 4 = regOffset (lenReg a)) ∨ addr.toNat / 4 * 4 = regOffset .tlen := by
  have word : addr.toNat / 4 * 4 = 0x0020 ∨ addr.toNat / 4 * 4 = 0x0024 ∨ addr.toNat / 4 * 4 = 0x0028 ∨
      addr.toNat / 4 * 4 = 0x002C := by omega
  rcases word with h | h | h | h
  · exact .inl ⟨.key, h⟩
  · exact .inl ⟨.data, h⟩
  · exact .inl ⟨.res, h⟩
  · exact .inr h

/-- The windows of the three buffers are the 4 KiB from 0x1000, from 0x2000 and from 0x3000 (R53). -/
theorem bufferWindow_of_range {addr : Addr} (h : 0x1000 ≤ addr.toNat ∧ addr.toNat ≤ 0x3FFF) :
    ∃ a, addr.toNat / 4 * 4 = windowBase a + 4 * (addr.toNat % 0x1000 / 4) := by
  have window : addr.toNat / 0x1000 = 1 ∨ addr.toNat / 0x1000 = 2 ∨ addr.toNat / 0x1000 = 3 := by omega
  rcases window with h | h | h
  · exact ⟨.key, by simp only [windowBase, bufNumber]; omega⟩
  · exact ⟨.data, by simp only [windowBase, bufNumber]; omega⟩
  · exact ⟨.res, by simp only [windowBase, bufNumber]; omega⟩

theorem hostRead_lengthRegister (s : State) {addr : Addr} (h : 0x0020 ≤ addr.toNat ∧ addr.toNat ≤ 0x002F) :
    ∃ v, hostRead addr s = readOperand v s := by
  rcases lengthRegister_of_range h with ⟨a, ha⟩ | ht
  · refine ⟨s.len a, ?_⟩
    rw [hostRead, place_reg s (lenReg a) ha]
    cases a <;> rfl
  · refine ⟨s.tlen, ?_⟩
    rw [hostRead, place_reg s .tlen ht]

theorem hostRead_bufferWindow {s : State} (hm : s.maxBits ≤ 8192) {addr : Addr}
    (h : 0x1000 ≤ addr.toNat ∧ addr.toNat ≤ 0x3FFF) (hw : addr.toNat % 0x1000 / 4 < s.maxWords) :
    ∃ v, hostRead addr s = readOperand v s := by
  obtain ⟨a, ha⟩ := bufferWindow_of_range h
  exact ⟨_, hostRead_window (place_window hm hw ha)⟩

theorem hostRead_textWindow {s : State} (hm : s.maxBits ≤ 8192) {addr : Addr}
    (h : 0x4000 ≤ addr.toNat ∧ addr.toNat ≤ 0x4FFF) (hj : addr.toNat % 0x1000 / 4 < s.maxChars) :
    ∃ v, hostRead addr s = readOperand v s := by
  have word : addr.toNat / 4 * 4 = textBase + 4 * (addr.toNat % 0x1000 / 4) := by
    simp only [textBase]
    omega
  exact ⟨_, hostRead_text (place_text hm hj word)⟩

/-- Settles O42: at each of the three kinds of address the read is of an operand, whatever its word. -/
theorem busyOperandReadsDrawAFreshWord : Obligations.BusyOperandReadsDrawAFreshWord := by
  intro s addr hs hp haddr
  obtain ⟨⟨-, hm, -⟩, -⟩ := hs
  have operand : ∃ v, hostRead addr s = readOperand v s := by
    rcases haddr with h | ⟨hlo, hhi, hw⟩ | ⟨hlo, hhi, hj⟩
    · exact hostRead_lengthRegister s h
    · exact hostRead_bufferWindow hm ⟨hlo, hhi⟩ hw
    · exact hostRead_textWindow hm ⟨hlo, hhi⟩ hj
  obtain ⟨v, e⟩ := operand
  rw [e, readOperand_busy v hp]

/-! ### writes while BUSY = 1 (R102, R184) -/

/-- Settles O32: the host's write of any target meets a busy block. -/
theorem aWriteWhileBusyIsDropped : Obligations.AWriteWhileBusyIsDropped := by
  intro s ts target v rest hturns hp hh
  rw [step_of_wr (.inl hturns) hh, hostWrite_busy (s := { s with turns := ts, host := rest }) _ v hp]

/-! ### reset (R180, R37) -/

theorem bitAt_resetBits (s : State) (a : Buf) {p : Nat} (hp : p < s.maxBits) :
    bitAt (resetBits s a) p = Config.resetBit s.draws (bufNumber a) p := by
  have hin : p < (resetBits s a).length := by simpa [resetBits] using hp
  rw [bitAt_of_lt hin]
  simp [resetBits]

theorem resetBlock_text_getD (s : State) {j : Nat} (hj : j < s.maxChars) :
    (resetBlock s).text.getD j 0#32 = Config.resetText s.draws j := by
  simp [List.getD_eq_getElem?_getD, hj]

@[simp] theorem resetBlock_status (s : State) : (resetBlock s).status = 0#32 := by
  rw [State.status, resetBlock_err, resetBlock_hzd, resetBlock_trail, resetBlock_done, resetBlock_pend]
  rfl

/-- Settles O53: the step is `resetBlock` on the state with the turn taken, whose fields are known one by one. -/
theorem resetClearsTheBlock : Obligations.ResetClearsTheBlock := by
  intro s ts hturns
  have bit : ∀ (a : Buf), ∀ p < s.maxBits,
      bitAt (resetBits { s with turns := ts } a) p = Config.resetBit s.draws (bufNumber a) p :=
    fun a _ hp => bitAt_resetBits { s with turns := ts } a hp
  exact ⟨_, step_of_reset hturns, rfl, rfl, rfl, rfl, resetBlock_status _, rfl, rfl, rfl, resetBlock_wf _,
    fun p hp => ⟨bit .key p hp, bit .data p hp, bit .res p hp⟩,
    fun _ hj => resetBlock_text_getD { s with turns := ts } hj, rfl, rfl, rfl⟩

/-! ### a run that is over (R190, R175) -/

theorem hostTurn_of_no_statement {s : State} (h : s.host = []) : hostTurn s = s := by rw [hostTurn, h]

/-- With no statement left and nothing pending, the host's turn and the engine's are both idle. -/
theorem step_of_runOver {s : State} (h : s.RunOver) (hno : (nextTurn s).1 ≠ .reset) :
    ∃ ts, step s = .next { s with turns := ts } := by
  obtain ⟨hh, hp⟩ := h
  obtain ⟨ts, hts⟩ := nextTurn_state s
  refine ⟨ts, ?_⟩
  rcases step_cases s with ⟨-, e⟩ | ⟨-, hbusy, -⟩ | ⟨-, -, e⟩ | ⟨hreset, -⟩
  · rw [e, hts, hostTurn_of_no_statement (s := { s with turns := ts }) hh]
  · exact absurd hbusy (by simp [hp])
  · rw [e, hts]
  · exact absurd hreset hno

/-- Settles O49: the step's only change is the list of turns. -/
theorem aFinishedRunStaysFinished : Obligations.AFinishedRunStaysFinished := by
  intro s t hover hno ht
  obtain ⟨ts, e⟩ := step_of_runOver hover hno
  rw [e] at ht
  cases ht
  rfl

end Sys2Proof.Machine
